-- ==== Sys2Proof/Word.lean ====
section
/-! DEFINITION. The word types of the engine (00_scope.md R7, R8): every value is unsigned and `+` on words is addition
modulo 2^32, which is what `BitVec` addition is. -/

namespace Sys2Proof

/-- Word8 of R10: one byte. -/
abbrev Byte := BitVec 8

/-- Word32 of R6: the word of the engine. -/
abbrev Word := BitVec 32

/-- Word64 of R36: the width of BITLEN and of the length field. -/
abbrev DWord := BitVec 64

end Sys2Proof
end

