-- ==== Sys2Proof/Syntax.lean ====
section
/-! DEFINITION. The commands of the engine (30_encoding.md R100, R101, R106) and the fields of a command word. -/

namespace Sys2Proof

/-- The commands a host writes to CTRL: one constructor per row of spec/opcode_table.json. -/
inductive Instr where
  /-- NOP (44_commands.md R241). -/
  | nop
  /-- INIT (R242): starts a session. -/
  | init
  /-- ABSORB n (R243), with its operand field NBM1 = n − 1 (30_encoding.md R102), so n is 1, 2, 3 or 4. -/
  | absorb (nbm1 : BitVec 2)
  /-- FINAL (R244): ends the message. -/
  | final
  deriving DecidableEq, Repr

/-- The three fields of a command word, `v = (RSVD[25:0], NBM1[1:0], OPC[3:0])` (R100). -/
structure CmdFields where
  /-- Bits 31:6, reserved. -/
  rsvd : BitVec 26
  /-- Bits 5:4, the number of bytes minus one. -/
  nbm1 : BitVec 2
  /-- Bits 3:0, the operation code. -/
  opc  : BitVec 4
  deriving DecidableEq, Repr

/-- The fields of each command's word, row by row of the table of R106. -/
def Instr.fields : Instr → CmdFields
  | .nop         => { rsvd := 0, nbm1 := 0,    opc := 0 }
  | .init        => { rsvd := 0, nbm1 := 0,    opc := 1 }
  | .absorb nbm1 => { rsvd := 0, nbm1 := nbm1, opc := 2 }
  | .final       => { rsvd := 0, nbm1 := 0,    opc := 3 }

end Sys2Proof
end

