-- ==== Sys2Proof/WellFormed.lean ====
section
/-! DEFINITION. When the fields of a command word are a legal command (30_encoding.md R104, R105, R107). -/

namespace Sys2Proof

/-- R104: RSVD must be zero in every command. -/
def CmdFields.reservedZero (f : CmdFields) : Bool := f.rsvd == 0

/-- R101: operation codes 0x4 to 0xF are reserved. -/
def CmdFields.opcodeDefined (f : CmdFields) : Bool := f.opc.toNat < 4

/-- R104: NBM1 must be zero for every OPC other than ABSORB. -/
def CmdFields.byteCountAllowed (f : CmdFields) : Bool := f.opc == 2 || f.nbm1 == 0

/-- The three checks of R105 together. -/
def CmdFields.wellFormed (f : CmdFields) : Bool :=
  f.reservedZero && f.opcodeDefined && f.byteCountAllowed

/-- A command is well-formed when its fields are. Every term of `Instr` is: NBM1 has the field's own width. -/
def Instr.wellFormed (i : Instr) : Bool := i.fields.wellFormed

end Sys2Proof
end

