-- ==== Sys2Proof/Decode.lean ====
section
/-! DEFINITION. Decoding a command word, total on every 32-bit value (30_encoding.md R105), and the encoder, from the same
table (R106). -/

namespace Sys2Proof

/-- Why a word is Illegal (R105), in the order in which R105 checks. All three raise ILLEGAL_CMD (60_exceptions.md R281). -/
inductive IllegalWord where
  /-- RSVD, bits 31:6, is not zero. -/
  | reservedBits
  /-- OPC is 0x4 to 0xF. -/
  | reservedOpcode
  /-- NBM1 is not zero and OPC is not ABSORB. -/
  | byteCountNotAllowed
  deriving DecidableEq, Repr

/-- R100: the fields of the word v. -/
def splitWord (v : Word) : CmdFields :=
  { rsvd := v.extractLsb' 6 26, nbm1 := v.extractLsb' 4 2, opc := v.extractLsb' 0 4 }

/-- R100: the word with the given fields. -/
def joinFields (f : CmdFields) : Word := f.rsvd ++ f.nbm1 ++ f.opc

/-- R105 on fields: the command they name, or why they are Illegal. -/
def decodeFields (f : CmdFields) : Except IllegalWord Instr :=
  if !f.reservedZero then .error .reservedBits
  else if !f.opcodeDefined then .error .reservedOpcode
  else if !f.byteCountAllowed then .error .byteCountNotAllowed
  else match f.opc.toNat with
    | 0 => .ok .nop
    | 1 => .ok .init
    | 2 => .ok (.absorb f.nbm1)
    | _ => .ok .final

/-- `Decode(v)` of R105. -/
def decode (v : Word) : Except IllegalWord Instr := decodeFields (splitWord v)

/-- The command word of an instruction (R106). -/
def encode (i : Instr) : Word := joinFields i.fields

/-- The instruction the decoder reads from the table's bits `w`, `nbits` of them, every bit above zero. A command is one
32-bit word (R100), so bits beyond the 32nd make it no command. -/
def decodeTableWord (nbits w : Nat) : Option Instr :=
  let v := w % 2 ^ nbits
  if v < 2 ^ 32 then
    match decode (BitVec.ofNat 32 v) with
    | .ok i => some i
    | .error _ => none
  else none

end Sys2Proof
end

