-- ==== Sys2Proof/Config.lean ====
section
/-! DEFINITION. What is fixed for the machine: the identity strings and the parameters of 00_scope.md R3 and R6. The engine has
no free value: the spec leaves no result open. -/

namespace Sys2Proof.Config

/-- R3: the name a model gives this hardware. -/
def hardwareName : String := "bluetox-sha256-core"

/-- R3: the interface version, the spec's own label. -/
def interfaceVersion : String := "if1"

/-- R6: the register window is 64 bytes, and SHA_BASE is a multiple of 64 (20_memory.md R71). -/
abbrev windowBytes : Nat := 64

/-- R6: a block is 64 bytes. -/
abbrev blockBytes : Nat := 64

/-- R6: 64 rounds per block. -/
abbrev rounds : Nat := 64

/-- SHA_BASE / 64 in `State.reset`. DESIGN CHOICE (log 2), unsafe: SHA_BASE is an OPEN parameter (R71), held in the state so
that a statement about every state is one about every base. -/
def basePageAtReset : Nat := 0

end Sys2Proof.Config
end

