-- ==== Sys2Proof/Machine/State.lean ====
section
/-! DEFINITION. The state of one engine instance (10_state.md R30), the host port's pending events, the reasons a step can
stop, and the state after reset (R54, 70_reset_and_hazards.md R310). K and IV are constants (Machine/Rom.lean, log 6). -/

namespace Sys2Proof.Machine

/-- PHASE, the sequencer state (R45). -/
inductive Phase where
  /-- Code 0: no session, the state after reset. -/
  | idle
  /-- Code 1, OPEN: session open, message bytes being absorbed. -/
  | opened
  /-- Code 2: FINAL accepted, the padding blocks are being compressed. -/
  | finishing
  /-- Code 3: session finished, H holds the digest. -/
  | done
  /-- Code 4: an error was recorded. -/
  | error
  deriving DecidableEq, Repr

/-- The causes `raise Error(code)` takes (60_exceptions.md R281, R283). -/
inductive Cause where
  /-- The CTRL word decodes to Illegal. -/
  | illegalCmd
  /-- A legal command other than NOP while BUSY = 1. -/
  | busyViolation
  /-- ABSORB or FINAL while PHASE is not OPEN. -/
  | sequence
  deriving DecidableEq, Repr

/-- The working registers a..h, work[0..7] in that order (10_state.md R32). -/
structure Work where
  a : Word
  b : Word
  c : Word
  d : Word
  e : Word
  f : Word
  g : Word
  h : Word
  deriving DecidableEq, Repr

/-- HashState, H[0..7] (R31). -/
abbrev HashState := Vector Word 8

/-- A block of 64 bytes, as BUF holds it (R35). -/
abbrev Block := Vector Byte 64

/-- A message schedule W[0..63] (R33). -/
abbrev Sched := Vector Word 64

/-- One host access, a whole transaction at byte address `addr` of `size` bytes (20_memory.md R70). -/
inductive Access where
  /-- `MemRead(addr, n)`. -/
  | read (addr size : Nat)
  /-- `MemWrite(addr, n, v)`: v has 8·n bits, so it stands for `value` modulo 2^(8·n) (log 13). -/
  | write (addr size value : Nat)
  deriving DecidableEq, Repr

/-- What happens next to the engine (00_scope.md R13, 70_reset_and_hazards.md R310). -/
inductive Event where
  /-- The host performs one register access. -/
  | access (a : Access)
  /-- The engine agent's turn: one internal step while BUSY = 1, nothing while BUSY = 0. -/
  | engineTurn
  /-- The reset input is asserted. -/
  | reset
  deriving DecidableEq, Repr

/-- What the port answered in the last step (20_memory.md R73). The model's own (log 7). -/
inductive Answer where
  /-- The last step was no host access. -/
  | nothing
  /-- A write was accepted. -/
  | ok
  /-- A read was accepted and returned this value. -/
  | data (v : Word)
  deriving DecidableEq, Repr

/-- Why the machine stops with a fault. -/
inductive Fault where
  /-- BusError (20_memory.md R73): a host access in the window that is not an aligned 4-byte access. Raised by `portAccess`.
  Safe: the spec's model faults here (93_implementation_defined.md P6), where the hardware goes on unchanged (log 4). -/
  | busError
  /-- StructuralInvariantViolation (60_exceptions.md R282; 41_padding_sequencer.md R163). Raised by the reference function
  `chunks` on a length that is no multiple of 64, and by no step. Safe (log 14). -/
  | structuralInvariantViolation
  deriving DecidableEq, Repr

/-- Why the model gives a step no meaning. -/
inductive Refusal where
  /-- An instruction with no meaning yet: raised by no arm of `exec`. Safe. -/
  | notModelled (mnemonic : String)
  /-- An access outside the window, which the spec does not define (20_memory.md R72; 93_implementation_defined.md P5). Raised
  by `portAccess`. Safe (log 5). -/
  | outsideWindow
  deriving DecidableEq, Repr

/-- The state: R30's elements (K and IV apart, which nothing can write), then the model's own three fields. -/
structure State where
  /-- H[0..7]. -/
  hash     : HashState
  /-- a..h. -/
  work     : Work
  /-- W[0..63]. -/
  sched    : Sched
  /-- The round counter, 0..64. -/
  t        : Fin 65
  /-- BUF[0..63]. -/
  buf      : Block
  /-- FILL, 0..63. -/
  fill     : Fin 64
  /-- BITLEN. -/
  bitlen   : DWord
  /-- DATA. -/
  data     : Word
  /-- PHASE. -/
  phase    : Phase
  /-- BUSY. -/
  busy     : Bool
  /-- PADPEND. -/
  padpend  : Bool
  /-- ERRCODE. -/
  errcode  : BitVec 4
  /-- SHA_BASE / 64, which no step changes (log 2). -/
  basePage : Nat
  /-- The events to come, oldest first (log 1). -/
  inbox    : List Event
  /-- The port's answer in the last step (log 7). -/
  answer   : Answer
  deriving DecidableEq, Repr

/-- Every field at the value R54 states for reset. R54 leaves a..h, W, t and BUF unspecified: they are 0 here, DESIGN CHOICE
(log 3), unsafe. The last three fields are the model's own (logs 1, 2, 7). -/
def State.reset : State where
  hash     := Vector.replicate 8 0
  work     := { a := 0, b := 0, c := 0, d := 0, e := 0, f := 0, g := 0, h := 0 }
  sched    := Vector.replicate 64 0
  t        := 0
  buf      := Vector.replicate 64 0
  fill     := 0
  bitlen   := 0
  data     := 0
  phase    := .idle
  busy     := false
  padpend  := false
  errcode  := 0
  basePage := Config.basePageAtReset
  inbox    := []
  answer   := .nothing

end Sys2Proof.Machine
end

