-- ==== Sys2Proof/Machine/Rom.lean ====
section
/-! DEFINITION. The constant store (40_constants.md): the two ROMs (R135) with the contents of R136 and R137, and the derivation
that defines them (R130, R134). -/

namespace Sys2Proof.Machine

/-- R136: the round-constant ROM K[0..63], which nothing can write (10_state.md R38). -/
def kRom : Vector Word 64 :=
  #v[0x428A2F98, 0x71374491, 0xB5C0FBCF, 0xE9B5DBA5,
    0x3956C25B, 0x59F111F1, 0x923F82A4, 0xAB1C5ED5,
    0xD807AA98, 0x12835B01, 0x243185BE, 0x550C7DC3,
    0x72BE5D74, 0x80DEB1FE, 0x9BDC06A7, 0xC19BF174,
    0xE49B69C1, 0xEFBE4786, 0x0FC19DC6, 0x240CA1CC,
    0x2DE92C6F, 0x4A7484AA, 0x5CB0A9DC, 0x76F988DA,
    0x983E5152, 0xA831C66D, 0xB00327C8, 0xBF597FC7,
    0xC6E00BF3, 0xD5A79147, 0x06CA6351, 0x14292967,
    0x27B70A85, 0x2E1B2138, 0x4D2C6DFC, 0x53380D13,
    0x650A7354, 0x766A0ABB, 0x81C2C92E, 0x92722C85,
    0xA2BFE8A1, 0xA81A664B, 0xC24B8B70, 0xC76C51A3,
    0xD192E819, 0xD6990624, 0xF40E3585, 0x106AA070,
    0x19A4C116, 0x1E376C08, 0x2748774C, 0x34B0BCB5,
    0x391C0CB3, 0x4ED8AA4A, 0x5B9CCA4F, 0x682E6FF3,
    0x748F82EE, 0x78A5636F, 0x84C87814, 0x8CC70208,
    0x90BEFFFA, 0xA4506CEB, 0xBEF9A3F7, 0xC67178F2]

/-- R137: the initial-value ROM IV[0..7]. -/
def ivRom : HashState :=
  #v[0x6A09E667, 0xBB67AE85, 0x3C6EF372, 0xA54FF53A,
    0x510E527F, 0x9B05688C, 0x1F83D9AB, 0x5BE0CD19]

/-- The bits of a root, highest first: from `acc`, whose k-th power is at most n, add each of 2^(bits−1), …, 2^0 where the k-th power
stays at most n. -/
def rootBits (k n : Nat) : Nat → Nat → Nat
  | 0, acc => acc
  | b + 1, acc => rootBits k n b (if (acc + 2 ^ b) ^ k ≤ n then acc + 2 ^ b else acc)

/-- The largest m with m^k ≤ n, for k ≥ 1. -/
def rootFloor (k n : Nat) : Nat := rootBits k n (n.log2 / k + 1) 0

/-- R134: the largest m with m^2 ≤ n. -/
def isqrt (n : Nat) : Nat := rootFloor 2 n

/-- R134: the largest m with m^3 ≤ n. -/
def icbrt (n : Nat) : Nat := rootFloor 3 n

/-- R130: c is prime for the trial division: no p of ps with p ≤ isqrt(c) divides c. -/
def passesTrial (ps : List Nat) (c : Nat) : Bool :=
  let r := isqrt c
  ps.all fun p => r < p || c % p != 0

/-- R130: the while loop, at most `fuel` candidates of it. -/
def primesLoop (n : Nat) : Nat → Nat → List Nat → List Nat
  | 0, _, ps => ps
  | fuel + 1, c, ps =>
    if ps.length < n then primesLoop n fuel (c + 2) (if passesTrial ps c then ps ++ [c] else ps)
    else ps

/-- R130: `Primes(N)` for N ≥ 1. The fuel covers every odd candidate below 2^(N+1), and the N-th prime is at most 2^N. DESIGN CHOICE (log 20), unsafe:
for N = 0, of which R130 gives no behaviour, the total function answers [2]; the model uses it at 64 and 8 only. -/
def primes (n : Nat) : List Nat := primesLoop n (2 ^ n) 3 [2]

/-- R134: `icbrt(p·2^96) mod 2^32`, the round constant of the prime p. -/
def roundConstantOf (p : Nat) : Word := BitVec.ofNat 32 (icbrt (p * 2 ^ 96) % 2 ^ 32)

/-- R134: `isqrt(p·2^64) mod 2^32`, the initial hash value of the prime p. -/
def initialValueOf (p : Nat) : Word := BitVec.ofNat 32 (isqrt (p * 2 ^ 64) % 2 ^ 32)

end Sys2Proof.Machine
end

