-- ==== Sys2Proof/Machine/Operands.lean ====
section
/-! DEFINITION. Bit, byte and operand forms: shifts and rotation (00_scope.md R9), big-endian conversions (R10), the byte
lanes of DATA (20_memory.md R80), the byte count of ABSORB (30_encoding.md R102), and writing a run of bytes into a block. -/

namespace Sys2Proof.Machine

/-- R9: `x >> n`, the logical right shift, which fills with zeros. -/
def shr (x : Word) (n : Nat) : Word := x >>> n

/-- R9: `rotr(x, n) = (x >> n) | (x << (32 − n))`, for 1 ≤ n ≤ 31. -/
def rotr (x : Word) (n : Nat) : Word := (x >>> n) ||| (x <<< (32 - n))

/-- R10: `BE32(b0, b1, b2, b3)`, the big-endian value of four bytes. -/
def be32 (b0 b1 b2 b3 : Byte) : Word := b0 ++ b1 ++ b2 ++ b3

/-- R82: `BE32bytes(x)`, most significant byte first. -/
def be32Bytes (x : Word) : List Byte :=
  [x.extractLsb' 24 8, x.extractLsb' 16 8, x.extractLsb' 8 8, x.extractLsb' 0 8]

/-- R10: `BE64bytes(v)`, first byte v[63:56], last byte v[7:0]. -/
def be64Bytes (v : DWord) : List Byte :=
  be32Bytes (v.extractLsb' 32 32) ++ be32Bytes (v.extractLsb' 0 32)

/-- R10: `zeros(n)`. -/
def zeros (n : Nat) : List Byte := List.replicate n 0

/-- R102: n = NBM1 + 1, so 1, 2, 3 or 4. -/
def byteCount (nbm1 : BitVec 2) : Nat := nbm1.toNat + 1

/-- R80: the n message bytes of ABSORB n, byte k being DATA[31−8k : 24−8k]; the low 4 − n bytes are ignored. -/
def messageBytes (n : Nat) (d : Word) : List Byte := (be32Bytes d).take n

/-- The lines `B[i] <- b0; B[i+1] <- b1; …` for the bytes listed, in increasing index; an index past 63 writes nothing, and none
of this spec's uses reaches one. -/
def writeBytes (buf : Block) (i : Nat) : List Byte → Block
  | [] => buf
  | b :: bs => writeBytes (buf.setIfInBounds i b) (i + 1) bs

end Sys2Proof.Machine
end

