-- ==== Sys2Proof/Machine/Scheduler.lean ====
section
/-! DEFINITION. The message scheduler (42_scheduler.md): σ0, σ1 and Schedule(B). -/

namespace Sys2Proof.Machine

/-- R190: `σ0(x) = rotr(x,7) ⊕ rotr(x,18) ⊕ (x>>3)`. -/
def smallSigma0 (x : Word) : Word := rotr x 7 ^^^ rotr x 18 ^^^ shr x 3

/-- R191: `σ1(x) = rotr(x,17) ⊕ rotr(x,19) ⊕ (x>>10)`. -/
def smallSigma1 (x : Word) : Word := rotr x 17 ^^^ rotr x 19 ^^^ shr x 10

/-- R192: the big-endian words of a block's bytes, one for each group of four. -/
def bytesToWords : List Byte → List Word
  | b0 :: b1 :: b2 :: b3 :: bs => be32 b0 b1 b2 b3 :: bytesToWords bs
  | _ => []

/-- R193: the next word W[i] from the words before it, newest first, so that W[i−k] stands at index k − 1. -/
def nextWord (ws : List Word) : Word :=
  ws.getD 15 0 + smallSigma0 (ws.getD 14 0) + ws.getD 6 0 + smallSigma1 (ws.getD 1 0)

/-- R193: n further words, in increasing index; `ws` holds the words so far, newest first. -/
def extendSchedule : Nat → List Word → List Word
  | 0, ws => ws
  | n + 1, ws => extendSchedule n (nextWord ws :: ws)

/-- R194: the 64 words W[0], …, W[63] of the block B, as a list. -/
def scheduleWords (block : Block) : List Word :=
  (extendSchedule 48 (bytesToWords block.toList).reverse).reverse

theorem length_extendSchedule (n : Nat) (ws : List Word) : (extendSchedule n ws).length = n + ws.length := by
  induction n generalizing ws with
  | zero => simp [extendSchedule]
  | succ n ih => rw [extendSchedule, ih]; simp; omega

theorem length_bytesToWords (n : Nat) (bs : List Byte) (h : bs.length = 4 * n) : (bytesToWords bs).length = n := by
  induction n generalizing bs with
  | zero => simp_all [bytesToWords]
  | succ n ih =>
    match bs, h with
    | b0 :: b1 :: b2 :: b3 :: bs, h =>
      rw [bytesToWords, List.length_cons, ih bs (by simp at h; omega)]

theorem length_scheduleWords (block : Block) : (scheduleWords block).length = 64 := by
  rw [scheduleWords, List.length_reverse, length_extendSchedule, List.length_reverse,
    length_bytesToWords 16 _ (by simp)]

/-- R194: `Schedule(B)`, exactly 64 words, a pure function of the block. -/
def schedule (block : Block) : Sched :=
  ⟨(scheduleWords block).toArray, by simpa using length_scheduleWords block⟩

end Sys2Proof.Machine
end

