-- ==== Sys2Proof/Machine/Compressor.lean ====
section
/-! DEFINITION. The round functions, one round, and the block compression (43_compressor.md R210–R217). -/

namespace Sys2Proof.Machine

/-- R210: `Σ1(e) = rotr(e,6) ⊕ rotr(e,11) ⊕ rotr(e,25)`. -/
def bigSigma1 (e : Word) : Word := rotr e 6 ^^^ rotr e 11 ^^^ rotr e 25

/-- R211: `Ch(e, f, g) = (e & f) ⊕ (¬e & g)`. -/
def ch (e f g : Word) : Word := (e &&& f) ^^^ (~~~e &&& g)

/-- R212: `Σ0(a) = rotr(a,2) ⊕ rotr(a,13) ⊕ rotr(a,22)`. -/
def bigSigma0 (a : Word) : Word := rotr a 2 ^^^ rotr a 13 ^^^ rotr a 22

/-- R213: `Maj(a, b, c) = (a & b) ⊕ (a & c) ⊕ (b & c)`. -/
def maj (a b c : Word) : Word := (a &&& b) ^^^ (a &&& c) ^^^ (b &&& c)

/-- R214: T1, with K[i] = k and W[i] = w. -/
def temp1 (k w : Word) (s : Work) : Word := s.h + bigSigma1 s.e + ch s.e s.f s.g + k + w

/-- R215: T2. -/
def temp2 (s : Work) : Word := bigSigma0 s.a + maj s.a s.b s.c

/-- R216: `Round(i, s)`, a simultaneous assignment (00_scope.md R12). -/
def oneRound (i : Fin 64) (w : Sched) (s : Work) : Work :=
  let t1 := temp1 kRom[i] w[i] s
  let t2 := temp2 s
  { a := t1 + t2, b := s.a, c := s.b, d := s.c, e := s.d + t1, f := s.e, g := s.f, h := s.g }

/-- R219: the working-register copy of a hash state. -/
def workOf (h : HashState) : Work :=
  { a := h[0], b := h[1], c := h[2], d := h[3], e := h[4], f := h[5], g := h[6], h := h[7] }

/-- R221: `H[j] <- (H[j] + work[j]) mod 2^32` for j = 0..7. -/
def feedForward (h : HashState) (s : Work) : HashState :=
  #v[h[0] + s.a, h[1] + s.b, h[2] + s.c, h[3] + s.d, h[4] + s.e, h[5] + s.f, h[6] + s.g, h[7] + s.h]

/-- R217: `Compress(Hin, B)`. -/
def compress (hin : HashState) (block : Block) : HashState :=
  let w := schedule block
  feedForward hin ((List.finRange 64).foldl (fun s i => oneRound i w s) (workOf hin))

end Sys2Proof.Machine
end

