-- ==== Sys2Proof/Machine/Flags.lean ====
section
/-! DEFINITION. The status bits (10_state.md R45, R49; 60_exceptions.md R281): the codes and the STATUS word, assembled from
state on every read. -/

namespace Sys2Proof.Machine

/-- R45: the PHASE code, STATUS[6:4]. -/
def phaseCode : Phase → BitVec 3
  | .idle      => 0
  | .opened    => 1
  | .finishing => 2
  | .done      => 3
  | .error     => 4

/-- R281: the ERRCODE of each cause. -/
def causeCode : Cause → BitVec 4
  | .illegalCmd    => 1
  | .busyViolation => 2
  | .sequence      => 3

/-- R49: STATUS.DONE. -/
def doneBit (s : State) : Bool := decide (s.phase = .done)

/-- R49: STATUS.ERR. -/
def errBit (s : State) : Bool := decide (s.phase = .error)

/-- R49: `STATUS = (0[31:18], FILL[5:0], ERRCODE[3:0], 0[7], PHASE[2:0], PADPEND, ERR, DONE, BUSY)`. -/
def statusWord (s : State) : Word :=
  (0 : BitVec 14) ++ BitVec.ofNat 6 s.fill.val ++ s.errcode ++ (0 : BitVec 1) ++ phaseCode s.phase ++
    BitVec.ofBool s.padpend ++ BitVec.ofBool (errBit s) ++ BitVec.ofBool (doneBit s) ++ BitVec.ofBool s.busy

end Sys2Proof.Machine
end

