-- ==== Sys2Proof/Machine/Ops.lean ====
section
/-! DEFINITION. The named operations over the state: recording an error and leaving it, the sequencer
(41_padding_sequencer.md R165–R167), the engine's steps (43_compressor.md R219–R221), reset (70_reset_and_hazards.md R310), and
the register window's map and reads (10_state.md R47–R53; 20_memory.md R71, R74). -/

namespace Sys2Proof.Machine

/-- TAKING AN EXCEPTION on this hardware: `raise Error(code)` (60_exceptions.md R283). Nothing else changes (R290): no saved
context, no vector, and a block in flight keeps running (R287). -/
def raiseError (c : Cause) (s : State) : State :=
  { s with errcode := causeCode c, phase := .error, padpend := false }

/-- The body of INIT (44_commands.md R242). It is also THE RETURN FROM AN EXCEPTION: the one command that leaves ERROR, restoring
nothing (60_exceptions.md R286, R290). -/
def openSession (s : State) : State :=
  { s with hash := ivRom, bitlen := 0, fill := 0, padpend := false, errcode := 0, phase := .opened }

/-- `Launch()` (R219). -/
def launch (s : State) : State :=
  { s with sched := schedule s.buf, work := workOf s.hash, t := 0, busy := true }

/-- `AbsorbByte(b)` (R165). -/
def absorbByte (s : State) (b : Byte) : State :=
  let s1 := { s with buf := s.buf.set s.fill.val b, bitlen := s.bitlen + 8 }
  if h : s.fill.val = 63 then { launch s1 with fill := 0 }
  else { s1 with fill := ⟨s.fill.val + 1, by omega⟩ }

/-- The loop of ABSORB (R243): the bytes in increasing k. -/
def absorbBytes (s : State) (bs : List Byte) : State := bs.foldl absorbByte s

/-- R166: BUF as FinalPad leaves it, with f = FILL message bytes in front. -/
def finalBlock (buf : Block) (f : Fin 64) (bitlen : DWord) : Block :=
  let marked := buf.set f.val 0x80
  if f.val ≤ 55 then writeBytes marked (f.val + 1) (zeros (55 - f.val) ++ be64Bytes bitlen)
  else writeBytes marked (f.val + 1) (zeros (63 - f.val))

/-- `FinalPad()` (R166). PADPEND says that a second, length-only block must follow. -/
def finalPad (s : State) : State :=
  let s1 := { s with buf := finalBlock s.buf s.fill s.bitlen, padpend := decide (55 < s.fill.val) }
  { launch s1 with fill := 0, phase := .finishing }

/-- R167: BUF as the second padding block, `zeros(56) ++ BE64bytes(BITLEN)`. -/
def lengthBlock (buf : Block) (bitlen : DWord) : Block := writeBytes buf 0 (zeros 56 ++ be64Bytes bitlen)

/-- `AfterBlock()` (R167): what follows a completed block. -/
def afterBlock (s : State) : State :=
  if s.phase = .finishing ∧ s.padpend = true then
    launch { s with buf := lengthBlock s.buf s.bitlen, padpend := false }
  else if s.phase = .finishing then { s with phase := .done, busy := false }
  else { s with busy := false }

/-- `RoundStep()` (R220), enabled when BUSY = 1 and t < 64. -/
def roundStep (s : State) (h : s.t.val < 64) : State :=
  { s with work := oneRound ⟨s.t.val, h⟩ s.sched s.work, t := ⟨s.t.val + 1, by omega⟩ }

/-- `FeedForwardStep()` (R221), enabled when BUSY = 1 and t = 64. -/
def feedForwardStep (s : State) : State :=
  afterBlock { s with hash := feedForward s.hash s.work }

/-- The engine agent's turn (00_scope.md R13): its one enabled step, or nothing while BUSY = 0 (10_state.md R39). -/
def engineStep (s : State) : State :=
  if s.busy then
    if h : s.t.val < 64 then roundStep s h else feedForwardStep s
  else s

/-- `Reset()` (R310): every element of the engine at its reset value. The window's base and the events still to come are not the
engine's: they stay (log 15). -/
def resetEngine (s : State) : State :=
  { State.reset with basePage := s.basePage, inbox := s.inbox }

/-- SHA_BASE (20_memory.md R71), a multiple of 64 by construction. -/
def shaBase (s : State) : Nat := Config.windowBytes * s.basePage

/-- R71: the offset in the window of a byte address, where the window holds it. -/
def windowOffset (s : State) (addr : Nat) : Option (Fin 64) :=
  if h : shaBase s ≤ addr ∧ addr < shaBase s + 64 then some ⟨addr - shaBase s, by omega⟩ else none

/-- The registers of the window (10_state.md R47). -/
inductive Reg where
  | ctrl
  | status
  | data
  | bitlenLo
  | bitlenHi
  /-- DIGESTj. -/
  | digest (j : Fin 8)
  /-- One of the reserved offsets 0x0C, 0x18, 0x1C (R53). -/
  | reserved
  deriving DecidableEq, Repr

/-- R47: the register of each of the 16 word slots; slot k is at offset 4·k. -/
def windowMap : Vector Reg 16 :=
  #v[.ctrl, .status, .data, .reserved,
    .bitlenLo, .bitlenHi, .reserved, .reserved,
    .digest 0, .digest 1, .digest 2, .digest 3,
    .digest 4, .digest 5, .digest 6, .digest 7]

/-- R47: the register whose word holds the offset. -/
def regAt (off : Fin 64) : Reg := windowMap[off.val / 4]

/-- `RegRead(off)` (20_memory.md R74). A read changes no state (R76). -/
def regRead (s : State) : Reg → Word
  | .ctrl     => 0
  | .status   => statusWord s
  | .data     => s.data
  | .bitlenLo => s.bitlen.extractLsb' 0 32
  | .bitlenHi => s.bitlen.extractLsb' 32 32
  | .digest j => s.hash[j]
  | .reserved => 0

end Sys2Proof.Machine
end

