-- ==== Sys2Proof/Machine/Commands.lean ====
section
/-! DEFINITION. The meaning of each command: its rule (44_commands.md R241–R244) behind the checks of 60_exceptions.md R284 that
apply to it, in that rule's order. -/

namespace Sys2Proof.Machine

/-- R284 for ABSORB and FINAL: ignored in ERROR (step 1), BUSY_VIOLATION while busy (4), SEQUENCE outside OPEN (6), else the
command's rule. -/
def inOpenSession (body : State → State) (s : State) : State :=
  if s.phase = .error then s
  else if s.busy then raiseError .busyViolation s
  else if s.phase ≠ .opened then raiseError .sequence s
  else body s

/-- NOP (R241): no state change, in every phase and with either value of BUSY. -/
def execNop (s : State) : Host.Outcome State Fault Refusal := .next s

/-- INIT (R242) with R284: while BUSY = 1 it is ignored in ERROR (step 1) and a BUSY_VIOLATION elsewhere (4); else it opens a session, in
any phase (1, 5). -/
def execInit (s : State) : Host.Outcome State Fault Refusal :=
  if s.busy then
    if s.phase = .error then .next s else .next (raiseError .busyViolation s)
  else .next (openSession s)

/-- ABSORB n (R243): appends the top n = NBM1 + 1 bytes of DATA. -/
def execAbsorb (nbm1 : BitVec 2) (s : State) : Host.Outcome State Fault Refusal :=
  .next (inOpenSession (fun s => absorbBytes s (messageBytes (byteCount nbm1) s.data)) s)

/-- FINAL (R244): pads and launches the first padding block. -/
def execFinal (s : State) : Host.Outcome State Fault Refusal := .next (inOpenSession finalPad s)

end Sys2Proof.Machine
end

