-- ==== Sys2Proof/Machine/Dispatch.lean ====
section
/-! DEFINITION. What a command does when the engine executes it: one arm per constructor, each a direct call of its meaning. -/

namespace Sys2Proof.Machine

-- Dispatch(v) of 60_exceptions.md R284, after Decode; the Illegal case is executeCommand's (Machine/Port.lean).
def exec (i : Instr) (s : State) : Host.Outcome State Fault Refusal :=
  match i with
  | .nop => Sys2Proof.Machine.execNop s
  | .init => Sys2Proof.Machine.execInit s
  | .absorb nbm1 => Sys2Proof.Machine.execAbsorb nbm1 s
  | .final => Sys2Proof.Machine.execFinal s

end Sys2Proof.Machine
end

