-- ==== Sys2Proof/Machine/Port.lean ====
section
/-! DEFINITION. The host port (20_memory.md R70–R77), the execution of a command word (44_commands.md R240), and one event of the
whole machine (00_scope.md R13; 70_reset_and_hazards.md R310). -/

namespace Sys2Proof.Machine

/-- R284 steps 1 and 2 for an Illegal word: ignored in ERROR, else ILLEGAL_CMD. -/
def executeIllegal (s : State) : State :=
  if s.phase = .error then s else raiseError .illegalCmd s

/-- `ExecuteCommand(v)` (R240). -/
def executeCommand (v : Word) (s : State) : Host.Outcome State Fault Refusal :=
  match decode v with
  | .ok i    => exec i s
  | .error _ => .next (executeIllegal s)

/-- `RegWrite(off, v)` (R75): CTRL executes a command, DATA is stored, every other write has no effect. -/
def regWrite (r : Reg) (v : Word) (s : State) : Host.Outcome State Fault Refusal :=
  match r with
  | .ctrl     => executeCommand v s
  | .status   => .next s
  | .data     => .next { s with data := v }
  | .bitlenLo => .next s
  | .bitlenHi => .next s
  | .digest _ => .next s
  | .reserved => .next s

/-- The byte address of an access. -/
def accessAddr : Access → Nat
  | .read addr _    => addr
  | .write addr _ _ => addr

/-- The size in bytes of an access. -/
def accessSize : Access → Nat
  | .read _ size    => size
  | .write _ size _ => size

/-- An accepted access of the register r: a read answers its value, a write answers OK and takes effect. -/
def accessReg (a : Access) (r : Reg) (s : State) : Host.Outcome State Fault Refusal :=
  match a with
  | .read _ _        => .next { s with answer := .data (regRead s r) }
  | .write _ _ value => regWrite r (BitVec.ofNat 32 value) { s with answer := .ok }

/-- `HostAccess(addr, n, kind, v)` (R73). Outside the window the spec defines nothing (R72), and the model refuses (log 5); in the window
every shape but an aligned 4-byte access is a BusError (log 4). -/
def portAccess (a : Access) (s : State) : Host.Outcome State Fault Refusal :=
  match windowOffset s (accessAddr a) with
  | none => .refused .outsideWindow
  | some off =>
    if accessSize a ≠ 4 ∨ off.val % 4 ≠ 0 then .fault .busError
    else accessReg a (regAt off) s

/-- One event, in a state it has been taken from the inbox of. -/
def runEvent (e : Event) (s : State) : Host.Outcome State Fault Refusal :=
  match e with
  | .access a   => portAccess a s
  | .engineTurn => .next (engineStep s)
  | .reset      => .next (resetEngine s)

/-- The state in which an event runs: the later events still to come, and the port's last answer gone. -/
def awaiting (later : List Event) (s : State) : State := { s with inbox := later, answer := .nothing }

/-- One step of the machine: the oldest pending event, or, with none pending, the engine's turn (weak fairness, log 8). -/
def runNext (s : State) : Host.Outcome State Fault Refusal :=
  match s.inbox with
  | []     => runEvent .engineTurn (awaiting [] s)
  | e :: l => runEvent e (awaiting l s)

/-- The host access `MemWrite(SHA_BASE + 0x00, 4, v)` that issues the command word v (10_state.md R48; 30_encoding.md R109). -/
def ctrlWrite (s : State) (v : Nat) : Event := .access (.write (shaBase s) 4 v)

/-- The state with a write of the command word v to CTRL as its next event. -/
def withCommand (s : State) (v : Nat) : State := { s with inbox := ctrlWrite s v :: s.inbox }

end Sys2Proof.Machine
end

