-- ==== Sys2Proof/Machine/Step.lean ====
section
/-! DEFINITION. One step of the machine, and placing a command where the next step takes it from. -/

namespace Sys2Proof.Machine

/-- One step of one agent, or a reset (00_scope.md R13; 20_memory.md R86). -/
def step (s : State) : Host.Outcome State Fault Refusal := runNext s

/-- The machine fetches nothing (20_memory.md R90): a command arrives as a CTRL write. This puts that write in front of the events to come
(log 10). -/
def State.withFetchWord (s : State) (nbits w : Nat) : State := withCommand s (w % 2 ^ nbits)

end Sys2Proof.Machine
end

