-- ==== Sys2Proof/Machine/HostProgram.lean ====
section
/-! DEFINITION. The host agent that runs a host program (30_encoding.md R109, R110; 44_commands.md R249). Its variables and branches
are the host's, not the engine's, so it stands outside `State` and acts only through the port (log 11). -/

namespace Sys2Proof.Machine

/-- R109: `reg`, a register by name, or an offset written `@0x..`. -/
inductive HostReg where
  | ctrl
  | status
  | data
  | bitlenLo
  | bitlenHi
  | digest (j : Fin 8)
  | at (off : Nat)
  deriving DecidableEq, Repr

/-- R109: an immediate, in hex or as a character string of at most 4 characters. -/
inductive Imm where
  | hex (v : Word)
  | chars (cs : List Char)
  deriving DecidableEq, Repr

/-- A program location: the program's own label, or the one of the k-th WAIT (R110: each WAIT has a label of its own). -/
inductive Label where
  | named (name : String)
  | wait (k : Nat)
  deriving DecidableEq, Repr

/-- R109: the statements. -/
inductive HostStmt where
  /-- `NOP`, `INIT`, `ABSORB n`, `FINAL`. -/
  | command (i : Instr)
  /-- `WR reg, imm32`. -/
  | wr (r : HostReg) (v : Imm)
  /-- `RD reg -> name`. -/
  | rd (r : HostReg) (name : String)
  /-- `label:`. -/
  | label (l : Label)
  /-- `BNZ name, mask, label`. -/
  | bnz (name : String) (mask : Word) (target : Label)
  deriving DecidableEq, Repr

/-- A line of a program: a statement, or a pseudo-instruction of R110. -/
inductive HostLine where
  | stmt (s : HostStmt)
  | wait
  /-- `FEED n, imm32`, with n as ABSORB's field NBM1 = n − 1. -/
  | feed (nbm1 : BitVec 2) (v : Imm)
  | finish
  | readDigest
  | checkOk
  deriving DecidableEq, Repr

/-- R109, 10_state.md R47: `off(reg)`. -/
def offsetOf : HostReg → Nat
  | .ctrl     => 0x00
  | .status   => 0x04
  | .data     => 0x08
  | .bitlenLo => 0x10
  | .bitlenHi => 0x14
  | .digest j => 0x20 + 4 * j.val
  | .at off   => off

/-- R109: the character at place k of a string immediate, or the byte 0 past its end. DESIGN CHOICE (log 18), unsafe: a character above 0xFF, of which R109
gives no byte, counts modulo 256. -/
def charByte (cs : List Char) (k : Nat) : Byte := BitVec.ofNat 8 ((cs.map Char.toNat).getD k 0)

/-- R109: the value of an immediate; a string is packed big-endian into the top bytes. DESIGN CHOICE (log 18), unsafe: of a string of more than 4 characters,
which R109 does not have, the first four count. -/
def immWord : Imm → Word
  | .hex v    => v
  | .chars cs => be32 (charByte cs 0) (charByte cs 1) (charByte cs 2) (charByte cs 3)

/-- R109: the bus transaction of a statement, with the window at `base`; labels and branches have none. -/
def transaction (base : Nat) : HostStmt → Option Access
  | .command i => some (.write base 4 (encode i).toNat)
  | .wr r v    => some (.write (base + offsetOf r) 4 (immWord v).toNat)
  | .rd r _    => some (.read (base + offsetOf r) 4)
  | .label _   => none
  | .bnz _ _ _ => none

/-- R110: `WAIT`, with the label k. -/
def expandWait (k : Nat) : List HostStmt :=
  [.label (.wait k), .rd .status "s", .bnz "s" 1 (.wait k)]

/-- R110: the expansion of a line; its WAITs take the labels k, k + 1, …. -/
def expandLine (k : Nat) : HostLine → List HostStmt
  | .stmt s    => [s]
  | .wait      => expandWait k
  | .feed n v  => expandWait k ++ [.wr .data v, .command (.absorb n)]
  | .finish    => expandWait k ++ [.command .final] ++ expandWait (k + 1)
  | .readDigest =>
    [.rd (.digest 0) "d0", .rd (.digest 1) "d1", .rd (.digest 2) "d2", .rd (.digest 3) "d3",
      .rd (.digest 4) "d4", .rd (.digest 5) "d5", .rd (.digest 6) "d6", .rd (.digest 7) "d7"]
  | .checkOk   => [.rd .status "s", .bnz "s" 4 (.named "fail")]

/-- How many WAITs a line expands to. -/
def waitsOf : HostLine → Nat
  | .stmt _ | .readDigest | .checkOk => 0
  | .wait | .feed _ _ => 1
  | .finish => 2

/-- R110: a program is expanded before it runs. -/
def expandFrom : Nat → List HostLine → List HostStmt
  | _, []      => []
  | k, l :: ls => expandLine k l ++ expandFrom (k + waitsOf l) ls

/-- The host agent: its expanded program, the place of its next statement, and its variables, latest first. They start undefined
(95_test_vectors.md §3). -/
structure HostAgent where
  code : List HostStmt
  pc   : Nat
  vars : List (String × Word)
  deriving DecidableEq, Repr

/-- The host about to run a program. -/
def startHost (lines : List HostLine) : HostAgent := { code := expandFrom 0 lines, pc := 0, vars := [] }

/-- R249: a run of a host program ends when the program ends. -/
def hostEnded (a : HostAgent) : Bool := a.code.length ≤ a.pc

/-- Why the host agent cannot go on. -/
inductive HostStop where
  /-- The port answered the access with a fault. -/
  | fault (f : Fault)
  /-- The model gives the access no meaning. -/
  | refused (r : Refusal)
  /-- BNZ on a variable no RD has written. Safe (log 11). -/
  | undefinedVariable (name : String)
  /-- BNZ to a label the program does not have. Safe (log 11). -/
  | missingLabel (l : Label)
  deriving DecidableEq, Repr

/-- The two agents of R13 together. -/
structure System where
  host   : HostAgent
  engine : State
  deriving DecidableEq, Repr

/-- The host after a statement: the next statement's turn. -/
def advance (a : HostAgent) : HostAgent := { a with pc := a.pc + 1 }

/-- R109: `name <- v`. -/
def setVar (name : String) (v : Word) (a : HostAgent) : HostAgent := { a with vars := (name, v) :: a.vars }

/-- The value of a host variable, if an RD has written it. -/
def varValue (name : String) (a : HostAgent) : Option Word := (a.vars.find? fun p => p.1 == name).map (·.2)

/-- The place of a label. DESIGN CHOICE (log 19), unsafe: of a label that a program defines twice, on which R109 is silent, its first place. -/
def labelPlace (l : Label) (a : HostAgent) : Option Nat := a.code.findIdx? fun s => s == .label l

/-- R109: the host keeps what an RD returned. -/
def keepAnswer (st : HostStmt) (ans : Answer) (a : HostAgent) : HostAgent :=
  match st, ans with
  | .rd _ name, .data v => setVar name v a
  | _, _ => a

/-- R109: `BNZ name, mask, label`: go to label if `name & mask != 0`. -/
def branch (name : String) (mask : Word) (l : Label) (a : HostAgent) : Except HostStop HostAgent :=
  match varValue name a with
  | none => .error (.undefinedVariable name)
  | some v =>
    if v &&& mask = 0 then .ok (advance a)
    else match labelPlace l a with
      | none   => .error (.missingLabel l)
      | some p => .ok { a with pc := p }

/-- The host's turn: its next statement, or nothing when its program has ended. -/
def hostTurn (y : System) : Except HostStop System :=
  match y.host.code[y.host.pc]? with
  | none => .ok y
  | some (.bnz name mask l) => (branch name mask l y.host).map fun a => { y with host := a }
  | some st =>
    match transaction (shaBase y.engine) st with
    | none => .ok { y with host := advance y.host }
    | some a =>
      match portAccess a (awaiting y.engine.inbox y.engine) with
      | .next s'   => .ok { host := keepAnswer st s'.answer (advance y.host), engine := s' }
      | .fault f   => .error (.fault f)
      | .refused r => .error (.refused r)

/-- Who moves next in the system of the two agents (R13). -/
inductive Turn where
  | host
  | engine
  | reset
  deriving DecidableEq, Repr

/-- One step of the system: one agent's step, or a reset between steps (70_reset_and_hazards.md R310). -/
def systemStep (who : Turn) (y : System) : Except HostStop System :=
  match who with
  | .host   => hostTurn y
  | .engine => .ok { y with engine := engineStep (awaiting y.engine.inbox y.engine) }
  | .reset  => .ok { y with engine := resetEngine y.engine }

/-- The steps of an interleaving, in order (20_memory.md R86). -/
def runTurns : List Turn → System → Except HostStop System
  | [], y => .ok y
  | who :: rest, y => (systemStep who y).bind (runTurns rest)

end Sys2Proof.Machine
end

