-- ==== Sys2Proof/Machine/Reference.lean ====
section
/-! DEFINITION. The source's reference functions, which the hardware is held to: pad and chunks (41_padding_sequencer.md R160–R164), the
digest (44_commands.md R245) and its byte string (20_memory.md R82). No step runs them. -/

namespace Sys2Proof.Machine

/-- R161: `z(L) = (55 − L) mod 64`, the zero bytes of the padding. -/
def zeroCount (len : Nat) : Nat := (119 - len % 64) % 64

/-- R161: `nb(L)`, the blocks of the padded message. -/
def blockCount (len : Nat) : Nat := (len + 8) / 64 + 1

/-- R160: `pad(M)`; the length field is 8·L mod 2^64 (R170). -/
def pad (m : List Byte) : List Byte :=
  m ++ [0x80] ++ zeros (zeroCount m.length) ++ be64Bytes (BitVec.ofNat 64 (8 * m.length))

/-- R164: chunk i, the bytes [64·i, 64·i + 64) of p. -/
def chunkAt (p : List Byte) (i : Nat) : Block :=
  writeBytes (Vector.replicate 64 0) 0 ((p.drop (64 * i)).take 64)

/-- R163: `chunks(P)`; on a length that is no multiple of 64 the source's StructuralInvariantViolation. -/
def chunks (p : List Byte) : Except Fault (List Block) :=
  if p.length % 64 = 0 then .ok ((List.range (p.length / 64)).map (chunkAt p))
  else .error .structuralInvariantViolation

/-- R245: compressing blocks in order, from IV. -/
def compressAll (blocks : List Block) : HashState := blocks.foldl compress ivRom

/-- R245: `digest(M)`. -/
def digest (m : List Byte) : Except Fault HashState := (chunks (pad m)).map compressAll

/-- R82: the digest as a byte string, H[0] first, each word most significant byte first. -/
def digestBytes (h : HashState) : List Byte := h.toList.flatMap be32Bytes

end Sys2Proof.Machine
end

