-- ==== Sys2Proof/Safety.lean ====
section
/-! DEFINITION. What claims are stated in: the coherence of the control state (10_state.md R46), what the host can see, what a session is
and has absorbed (41_padding_sequencer.md R168), how it ends (44_commands.md R249), and the block in flight. -/

namespace Sys2Proof.Machine

/-- The invariants of R46, with the error codes the hardware produces (60_exceptions.md R281). FILL ≤ 63 and t ≤ 64 hold by their types. -/
structure Coherent (s : State) : Prop where
  finishing_busy    : s.phase = .finishing → s.busy = true
  idle_quiet        : s.phase = .idle → s.busy = false
  done_quiet        : s.phase = .done → s.busy = false
  padpend_finishing : s.padpend = true → s.phase = .finishing
  error_coded       : s.phase = .error ↔ s.errcode ≠ 0
  finishing_empty   : s.phase = .finishing → s.fill.val = 0
  done_empty        : s.phase = .done → s.fill.val = 0
  code_produced     : s.errcode.toNat ≤ 3

/-- R249: the engine is quiescent when BUSY = 0. -/
def quiescent (s : State) : Bool := !s.busy

/-- R83: every host-visible register. Two states that agree here cannot be told apart by reads. -/
def sameWindow (s s' : State) : Prop := ∀ r : Reg, regRead s' r = regRead s r

/-- Two states that differ at most in storage no rule may read before writing (R46, R54): the bytes of BUF past FILL, and, while BUSY = 0, W, the
working registers and t. -/
structure Indistinguishable (s s' : State) : Prop where
  hash     : s'.hash = s.hash
  fill     : s'.fill = s.fill
  bitlen   : s'.bitlen = s.bitlen
  data     : s'.data = s.data
  phase    : s'.phase = s.phase
  busy     : s'.busy = s.busy
  padpend  : s'.padpend = s.padpend
  errcode  : s'.errcode = s.errcode
  basePage : s'.basePage = s.basePage
  inbox    : s'.inbox = s.inbox
  answer   : s'.answer = s.answer
  held     : ∀ i : Fin 64, i < s.fill → s'.buf[i] = s.buf[i]
  sched    : s.busy = true → s'.sched = s.sched
  work     : s.busy = true → s'.work = s.work
  t        : s.busy = true → s'.t = s.t

/-- The next event is a write of a legal command to CTRL: that command. -/
def nextCommand (s : State) : Option Instr :=
  match s.inbox with
  | .access (.write addr 4 v) :: _ =>
    if addr = shaBase s then (decode (BitVec.ofNat 32 v)).toOption else none
  | _ => none

/-- The next event is a reset. -/
def nextIsReset (s : State) : Bool := decide (s.inbox.head? = some .reset)

/-- R249: a session is under way, begun by its INIT and not yet at DONE or ERROR. -/
def inSession (s : State) : Bool := decide (s.phase = .opened ∨ s.phase = .finishing)

/-- R249: the next event interrupts the session under way: a reset, or an INIT that is performed. (An INIT while BUSY = 1 is not performed: it is
an error, 60_exceptions.md R284.) -/
def interruptedNext (s : State) : Bool :=
  inSession s && (nextIsReset s || (decide (nextCommand s = some .init) && !s.busy))

/-- R249: the step from s to s' ends the session well: s' is its first state with PHASE = DONE. -/
def endedWell (s s' : State) : Bool := inSession s && decide (s'.phase = .done)

/-- R249: the step from s to s' ends the session badly: s' is its first state with PHASE = ERROR, or a reset or an INIT interrupts the session before
DONE. -/
def endedBadly (s s' : State) : Bool := inSession s && (decide (s'.phase = .error) || interruptedNext s)

/-- R249: the result of a session that has ended well, DIGEST0..7 as the host reads them. -/
def sessionResult (s : State) : HashState := Vector.ofFn fun j => regRead s (.digest j)

/-- R243, R284: the message bytes that the next step absorbs. -/
def absorbedNext (s : State) : List Byte :=
  match nextCommand s with
  | some (.absorb nbm1) =>
    if s.phase = .opened ∧ s.busy = false then messageBytes (byteCount nbm1) s.data else []
  | _ => []

/-- R168: s stands in a session that started with an accepted INIT, whose accepted ABSORBs have appended the bytes m in order, with no error, no
reset and no further INIT; host accesses and engine steps interleave in any way. -/
inductive SessionRun : List Byte → State → Prop where
  | start {s s' : State} : nextCommand s = some .init → s.busy = false → step s = .next s' → SessionRun [] s'
  | more {m : List Byte} {s s' : State} : SessionRun m s → nextIsReset s = false → nextCommand s ≠ some .init →
      step s = .next s' → s'.phase ≠ .error → SessionRun (m ++ absorbedNext s) s'

/-- n turns of the engine agent with no host step between them. -/
def engineRun : Nat → State → State
  | 0, s => s
  | n + 1, s => engineRun n (engineStep s)

/-- What a step's outcome leaves, where it is a next state. -/
def nextState : Host.Outcome State Fault Refusal → Option State
  | .next s    => some s
  | .fault _   => none
  | .refused _ => none

end Sys2Proof.Machine
end

