-- ==== Sys2Proof/Certificates/Slice0/Obligations.lean ====
section
/-! DEFINITION. The statements about the engine, taken from the numbered rules of spec/. -/

open Sys2Proof Sys2Proof.Machine

/-! ### Encoding -/

/-- 30_encoding.md R105, R106: decoding and encoding agree, both ways, for every 32-bit word and every command. -/
def Obligations.DecodeEncodeAgree : Prop :=
  ∀ (v : Word) (i : Instr), decode v = .ok i ↔ v = encode i

/-- R111, R105: exactly seven words decode to a command, and these are the commands. -/
def Obligations.SevenLegalWords : Prop :=
  ∀ (v : Word) (i : Instr), decode v = .ok i ↔
    (v, i) ∈ [(0x00000000#32, Instr.nop), (0x00000001#32, .init), (0x00000002#32, .absorb 0), (0x00000012#32, .absorb 1),
      (0x00000022#32, .absorb 2), (0x00000032#32, .absorb 3), (0x00000003#32, .final)]

/-- R106: words written out from the encodings of the table, and words of 95_test_vectors.md 2.9 that are Illegal. -/
def Obligations.TableWordsDecode : Prop :=
  decode 0b00000000000000000000000000000000#32 = .ok .nop ∧
  decode 0b00000000000000000000000000000001#32 = .ok .init ∧
  decode 0b00000000000000000000000000100010#32 = .ok (.absorb 0b10#2) ∧
  decode 0b00000000000000000000000000000011#32 = .ok .final ∧
  decode 0x00000004#32 = .error .reservedOpcode ∧
  decode 0x00000011#32 = .error .byteCountNotAllowed ∧
  decode 0x80000001#32 = .error .reservedBits

/-- R104: a nonzero reserved bit, or a nonzero NBM1 in a command other than ABSORB, makes the word Illegal, and the fields stand at bits 31:6, 5:4 and
3:0 of the word (R100). -/
def Obligations.ReservedBitsAreIllegal : Prop :=
  ∀ v : Word, (v.extractLsb' 6 26 ≠ 0 ∨ (v.extractLsb' 4 2 ≠ 0 ∧ v.extractLsb' 0 4 ≠ 2)) → ∃ e, decode v = .error e

/-! ### A step runs the decoded command; illegal words -/

/-- 44_commands.md R240, 10_state.md R48: the next event is a write of v to CTRL and v decodes to i: the step is exec of i, on the state with
that event taken from the inbox and the write answered OK. -/
def Obligations.StepRunsDecodedCommand : Prop :=
  ∀ (s : State) (later : List Event) (v : Nat) (i : Instr),
    s.inbox = .access (.write (shaBase s) 4 v) :: later → decode (BitVec.ofNat 32 v) = .ok i → i.wellFormed = true →
    step s = exec i { s with inbox := later, answer := .ok }

/-- The command that withFetchWord places is the one the next step runs: the model's own way of handing it a command (log 10). -/
def Obligations.PlacedCommandRuns : Prop :=
  ∀ (s : State) (i : Instr),
    step (s.withFetchWord 32 (encode i).toNat) = exec i { s with answer := .ok }

/-- 30_encoding.md R105, 60_exceptions.md R281, R283, R284: an Illegal word written to CTRL outside ERROR records ILLEGAL_CMD, whether BUSY or
not, and changes nothing else. -/
def Obligations.IllegalWordRecorded : Prop :=
  ∀ (s : State) (later : List Event) (v : Nat) (e : IllegalWord),
    s.inbox = .access (.write (shaBase s) 4 v) :: later → decode (BitVec.ofNat 32 v) = .error e → s.phase ≠ .error →
    step s = .next { s with inbox := later, answer := .ok, errcode := 1, phase := .error, padpend := false }

/-- 60_exceptions.md R285: in ERROR every CTRL write changes no state of the engine, but INIT with BUSY = 0; reads and writes to DATA act as in every
other phase. -/
def Obligations.ErrorPhaseIgnoresCommands : Prop :=
  ∀ (s : State) (later : List Event), s.phase = .error →
    (∀ v : Nat, s.inbox = .access (.write (shaBase s) 4 v) :: later →
      ¬ (decode (BitVec.ofNat 32 v) = .ok .init ∧ s.busy = false) →
      step s = .next { s with inbox := later, answer := .ok }) ∧
    (∀ v : Nat, s.inbox = .access (.write (shaBase s + 0x08) 4 v) :: later →
      step s = .next { s with inbox := later, answer := .ok, data := BitVec.ofNat 32 v }) ∧
    (∀ off : Fin 64, off.val % 4 = 0 → s.inbox = .access (.read (shaBase s + off.val) 4) :: later →
      step s = .next { s with inbox := later, answer := .data (regRead s (regAt off)) })

/-! ### The commands -/

/-- 44_commands.md R241: NOP, the word 0x00000000, changes no state, in every phase and with either value of BUSY. -/
def Obligations.NopChangesNothing : Prop :=
  encode .nop = 0x00000000#32 ∧ ∀ s : State, exec .nop s = .next s

/-- R242: INIT with BUSY = 0 opens a session, in any phase, and leaves DATA, BUF, W, t and the working registers. -/
def Obligations.InitOpensSession : Prop :=
  ∀ s : State, s.busy = false →
    exec .init s = .next { s with
      hash := #v[0x6A09E667, 0xBB67AE85, 0x3C6EF372, 0xA54FF53A, 0x510E527F, 0x9B05688C, 0x1F83D9AB, 0x5BE0CD19],
      bitlen := 0, fill := 0, padpend := false, errcode := 0, phase := .opened }

/-- R242, R284: INIT with BUSY = 1 is ignored in ERROR and records BUSY_VIOLATION in every other phase. -/
def Obligations.InitWhileBusy : Prop :=
  ∀ s : State, s.busy = true →
    exec .init s = .next (if s.phase = .error then s
      else { s with errcode := 2, phase := .error, padpend := false })

/-- R243, R80, R165: ABSORB n in an open session with room for its bytes appends the bytes DATA[31−8k : 24−8k], k = 0..n−1, and changes nothing but BUF,
FILL and BITLEN. -/
def Obligations.AbsorbAppendsBytes : Prop :=
  ∀ (s : State) (nbm1 : BitVec 2), s.phase = .opened → s.busy = false → s.fill.val + (nbm1.toNat + 1) < 64 →
    ∃ (buf : Block) (fill : Fin 64),
      exec (.absorb nbm1) s = .next { s with buf := buf, fill := fill, bitlen := s.bitlen + 8 * BitVec.ofNat 64 (nbm1.toNat + 1) } ∧
      fill.val = s.fill.val + (nbm1.toNat + 1) ∧
      ∀ i : Fin 64, buf[i] =
        if s.fill ≤ i ∧ i < fill then s.data.extractLsb' (24 - 8 * (i.val - s.fill.val)) 8 else s.buf[i]

/-- R243, R165, R219: an ABSORB n that brings the 64th byte launches the block made of the bytes held and the first bytes of DATA, and puts its further
bytes at BUF[0], BUF[1], …; nothing but BUF, FILL, BITLEN, W, the working registers, t and BUSY changes. -/
def Obligations.AbsorbLaunchesFullBlock : Prop :=
  ∀ (s : State) (nbm1 : BitVec 2), s.phase = .opened → s.busy = false → 64 ≤ s.fill.val + (nbm1.toNat + 1) →
    ∃ (full buf : Block) (fill : Fin 64),
      exec (.absorb nbm1) s = .next { s with
        buf := buf, fill := fill, bitlen := s.bitlen + 8 * BitVec.ofNat 64 (nbm1.toNat + 1),
        sched := schedule full, t := 0, busy := true,
        work := { a := s.hash[0], b := s.hash[1], c := s.hash[2], d := s.hash[3],
                  e := s.hash[4], f := s.hash[5], g := s.hash[6], h := s.hash[7] } } ∧
      fill.val + 64 = s.fill.val + (nbm1.toNat + 1) ∧
      (∀ i : Fin 64, full[i] =
        if i < s.fill then s.buf[i] else s.data.extractLsb' (24 - 8 * (i.val - s.fill.val)) 8) ∧
      (∀ i : Fin 64, buf[i] =
        if i < fill then s.data.extractLsb' (24 - 8 * (64 - s.fill.val + i.val)) 8 else full[i])

/-- 70_reset_and_hazards.md R314: an accepted ABSORB n leaves BUSY = 1 exactly when FILL + n ≥ 64 before it; an accepted FINAL always does. -/
def Obligations.WhichCommandsLeaveBusy : Prop :=
  ∀ (s : State) (nbm1 : BitVec 2), s.phase = .opened → s.busy = false →
    (∃ t, exec (.absorb nbm1) s = .next t ∧ (t.busy = true ↔ 64 ≤ s.fill.val + (nbm1.toNat + 1))) ∧
    (∃ t, exec .final s = .next t ∧ t.busy = true)

/-- R244, R166, R219: FINAL in an open session makes the block `BUF[0..f) ++ [0x80] ++ zeros`, with the length BE64bytes(BITLEN) in its last 8 bytes when
f ≤ 55 and PADPEND set when f ≥ 56, launches it, and enters FINISHING with FILL = 0. -/
def Obligations.FinalPadsAndLaunches : Prop :=
  ∀ s : State, s.phase = .opened → s.busy = false →
    ∃ buf : Block,
      exec .final s = .next { s with
        buf := buf, padpend := decide (56 ≤ s.fill.val), sched := schedule buf, t := 0, busy := true,
        work := { a := s.hash[0], b := s.hash[1], c := s.hash[2], d := s.hash[3],
                  e := s.hash[4], f := s.hash[5], g := s.hash[6], h := s.hash[7] },
        fill := 0, phase := .finishing } ∧
      ∀ i : Fin 64, buf[i] =
        if i < s.fill then s.buf[i]
        else if i = s.fill then 0x80
        else if 56 ≤ i.val ∧ s.fill.val ≤ 55 then s.bitlen.extractLsb' (56 - 8 * (i.val - 56)) 8
        else 0

/-- R284, R281: ABSORB and FINAL are ignored in ERROR, record BUSY_VIOLATION while BUSY = 1 in any other phase, and SEQUENCE with BUSY = 0 in a phase that is
neither OPEN nor ERROR; nothing else changes. -/
def Obligations.AbsorbAndFinalChecks : Prop :=
  ∀ (s : State) (i : Instr), (i = .final ∨ ∃ nbm1, i = .absorb nbm1) →
    (s.phase = .error → exec i s = .next s) ∧
    (s.phase ≠ .error → s.busy = true →
      exec i s = .next { s with errcode := 2, phase := .error, padpend := false }) ∧
    (s.phase ≠ .error → s.phase ≠ .opened → s.busy = false →
      exec i s = .next { s with errcode := 3, phase := .error, padpend := false })

/-- The frame of every command (R241–R244, R283): whatever its outcome it leaves DATA, and the window's base, the later events and the port's answer; NOP and a
check that fails leave H, BUF, FILL, BITLEN, W, the working registers, t and BUSY; ABSORB leaves H and, when accepted, PHASE, PADPEND and ERRCODE; FINAL leaves H, BITLEN and, when
accepted, ERRCODE; INIT leaves BUF, W, the working registers, t and BUSY. -/
def Obligations.CommandFrame : Prop :=
  ∀ (i : Instr) (s t : State), exec i s = .next t →
    t.data = s.data ∧ t.basePage = s.basePage ∧ t.inbox = s.inbox ∧ t.answer = s.answer ∧
    (i ≠ .init → t.hash = s.hash) ∧
    (i = .nop ∨ i = .final → t.bitlen = s.bitlen) ∧ (i = .nop → t.fill = s.fill) ∧
    (i = .nop ∨ i = .init → t.buf = s.buf ∧ t.sched = s.sched ∧ t.work = s.work ∧ t.t = s.t ∧ t.busy = s.busy) ∧
    (s.phase = .opened → s.busy = false → i ≠ .init → t.errcode = s.errcode ∧
      (i ≠ .final → t.phase = s.phase ∧ t.padpend = s.padpend)) ∧
    ((s.phase ≠ .opened ∨ s.busy = true) → i ≠ .init ∨ s.busy = true →
      t.hash = s.hash ∧ t.buf = s.buf ∧ t.fill = s.fill ∧ t.bitlen = s.bitlen ∧ t.sched = s.sched ∧ t.work = s.work ∧
        t.t = s.t ∧ t.busy = s.busy)

/-! ### Errors -/

/-- 60_exceptions.md R283: raise Error(code) writes ERRCODE, PHASE and PADPEND, and nothing else. -/
def Obligations.RaiseErrorWritesThreeElements : Prop :=
  ∀ (c : Cause) (s : State),
    raiseError c s = { s with
      errcode := (match c with | .illegalCmd => 1 | .busyViolation => 2 | .sequence => 3),
      phase := .error, padpend := false }

/-- R286: INIT with BUSY = 0 leaves ERROR, clearing ERRCODE and opening a session, and so does a reset; no other step leaves it. -/
def Obligations.OnlyInitOrResetLeavesError : Prop :=
  ∀ s : State, s.phase = .error →
    (nextCommand s = some .init → s.busy = false → ∃ t, step s = .next t ∧ t.errcode = 0 ∧ t.phase = .opened) ∧
    (nextIsReset s = true → ∃ t, step s = .next t ∧ t.phase = .idle) ∧
    (∀ t, step s = .next t → t.phase ≠ .error →
      nextIsReset s = true ∨ (nextCommand s = some .init ∧ s.busy = false))

/-- R287: a block in flight in ERROR runs to its feed-forward, which adds into H, clears BUSY and launches nothing. -/
def Obligations.BlockInFlightCompletesInError : Prop :=
  ∀ s : State, s.phase = .error → s.busy = true →
    engineStep s =
      if h : s.t.val < 64 then { s with work := oneRound ⟨s.t.val, h⟩ s.sched s.work, t := ⟨s.t.val + 1, by omega⟩ }
      else { s with hash := feedForward s.hash s.work, busy := false }

/-- R290, R284: errors are precise, and at most one is reported: a step from outside ERROR into ERROR is a CTRL write, and changes nothing but the three elements of
R283 and the port's. -/
def Obligations.ErrorsArePrecise : Prop :=
  ∀ s t : State, step s = .next t → s.phase ≠ .error → t.phase = .error →
    ∃ (v : Nat) (later : List Event) (c : Cause),
      s.inbox = .access (.write (shaBase s) 4 v) :: later ∧
      t = raiseError c { s with inbox := later, answer := .ok }

/-! ### The engine -/

/-- 43_compressor.md R220, R214–R216: a round step is Round(t) on the working registers and t + 1, and changes nothing else. -/
def Obligations.RoundStepComputesRound : Prop :=
  ∀ (s : State) (h : s.t.val < 64), s.busy = true →
    engineStep s = { s with
      t := ⟨s.t.val + 1, by omega⟩,
      work :=
        { a := s.work.h + bigSigma1 s.work.e + ch s.work.e s.work.f s.work.g + kRom[s.t.val] + s.sched[s.t.val] +
            (bigSigma0 s.work.a + maj s.work.a s.work.b s.work.c)
          b := s.work.a, c := s.work.b, d := s.work.c
          e := s.work.d + (s.work.h + bigSigma1 s.work.e + ch s.work.e s.work.f s.work.g + kRom[s.t.val] + s.sched[s.t.val])
          f := s.work.e, g := s.work.f, h := s.work.g } }

/-- R220: a round step is a stutter to the host. -/
def Obligations.RoundStepIsInvisible : Prop :=
  ∀ s : State, s.busy = true → s.t.val < 64 → sameWindow s (engineStep s)

/-- R221, R167: the feed-forward adds the working registers into H; then the second padding block is built and launched from that H, or the session is DONE, or a
message block is finished. -/
def Obligations.FeedForwardStepOutcome : Prop :=
  ∀ s : State, s.busy = true → s.t.val = 64 →
    (engineStep s).hash = #v[s.hash[0] + s.work.a, s.hash[1] + s.work.b, s.hash[2] + s.work.c, s.hash[3] + s.work.d,
      s.hash[4] + s.work.e, s.hash[5] + s.work.f, s.hash[6] + s.work.g, s.hash[7] + s.work.h] ∧
    (s.phase = .finishing → s.padpend = true →
      ∃ buf : Block,
        engineStep s = { s with
          hash := (engineStep s).hash, buf := buf, padpend := false, sched := schedule buf,
          work := workOf (engineStep s).hash, t := 0 } ∧
        ∀ i : Fin 64, buf[i] = if i.val < 56 then 0 else s.bitlen.extractLsb' (56 - 8 * (i.val - 56)) 8) ∧
    (s.phase = .finishing → s.padpend = false →
      engineStep s = { s with hash := (engineStep s).hash, phase := .done, busy := false }) ∧
    (s.phase ≠ .finishing → engineStep s = { s with hash := (engineStep s).hash, busy := false })

/-- 10_state.md R39: with BUSY = 0 the engine has no step. -/
def Obligations.QuietEngineHasNoStep : Prop :=
  ∀ s : State, s.busy = false → engineStep s = s

/-- 43_compressor.md R222, R318: after a Launch, 64 round steps leave H as it was and t = 64, and the feed-forward, the 65th engine step, leaves
H = Compress(H, BUF). -/
def Obligations.EngineStepsComputeCompress : Prop :=
  ∀ s : State,
    (∀ n ≤ 64, (engineRun n (launch s)).t.val = n ∧ (engineRun n (launch s)).busy = true ∧
      (engineRun n (launch s)).hash = s.hash) ∧
    (engineRun 65 (launch s)).hash = compress s.hash s.buf

/-- 70_reset_and_hazards.md R319, R318: with no host step the engine comes to BUSY = 0 within 65 steps per block of at most two, and a FINISHING session comes
to DONE. -/
def Obligations.BusyEngineComesToRest : Prop :=
  ∀ s : State, Coherent s → s.busy = true → s.inbox = [] →
    ∃ k ≤ 130, ∃ t : State, Host.Core.run core k s = .next t ∧ t.busy = false ∧
      (s.phase = .finishing → t.phase = .done) ∧ (s.phase ≠ .finishing → t.phase = s.phase ∧ k ≤ 65)

/-! ### Schedule, round functions, constants -/

/-- 42_scheduler.md R192: W[j] = BE32(B[4j], B[4j+1], B[4j+2], B[4j+3]) for j = 0..15. -/
def Obligations.ScheduleStartsWithBlockWords : Prop :=
  ∀ (b : Block) (j : Fin 16),
    (schedule b)[j.val] = be32 b[4 * j.val] b[4 * j.val + 1] b[4 * j.val + 2] b[4 * j.val + 3]

/-- R193: W[i] = W[i−16] + σ0(W[i−15]) + W[i−7] + σ1(W[i−2]) for i = 16..63. -/
def Obligations.ScheduleRecurrence : Prop :=
  ∀ (b : Block) (i : Nat) (_ : 16 ≤ i) (_ : i < 64),
    (schedule b)[i] = (schedule b)[i - 16] + smallSigma0 (schedule b)[i - 15] + (schedule b)[i - 7] +
      smallSigma1 (schedule b)[i - 2]

/-- 43_compressor.md R211: bit by bit, e selects f where it is 1 and g where it is 0. -/
def Obligations.ChooseSelectsBitwise : Prop :=
  ∀ (e f g : Word) (i : Nat), i < 32 →
    (ch e f g).getLsbD i = if e.getLsbD i then f.getLsbD i else g.getLsbD i

/-- R213: each bit of Maj is the majority of the three input bits. -/
def Obligations.MajorityBitwise : Prop :=
  ∀ (a b c : Word) (i : Nat), i < 32 →
    ((maj a b c).getLsbD i = true ↔ 2 ≤ (a.getLsbD i).toNat + (b.getLsbD i).toNat + (c.getLsbD i).toNat)

/-- 00_scope.md R9: rotr(x, n) moves bit (i + n) mod 32 of x to bit i, for 1 ≤ n ≤ 31. -/
def Obligations.RotateRightBitwise : Prop :=
  ∀ (x : Word) (n i : Nat), 1 ≤ n → n ≤ 31 → i < 32 → (rotr x n).getLsbD i = x.getLsbD ((i + n) % 32)

/-- 40_constants.md R134: isqrt and icbrt are the largest m with m^2 ≤ n and m^3 ≤ n. -/
def Obligations.RootsAreFloors : Prop :=
  ∀ n : Nat, (isqrt n ^ 2 ≤ n ∧ n < (isqrt n + 1) ^ 2) ∧ (icbrt n ^ 3 ≤ n ∧ n < (icbrt n + 1) ^ 3)

/-- R131, R130: Primes(64) is the list of the first 64 primes: 64 primes in increasing order, and every prime up to the last of them, 311. -/
def Obligations.PrimesAreTheFirstPrimes : Prop :=
  (primes 64).length = 64 ∧ (primes 64).Pairwise (· < ·) ∧ (primes 64).getLast? = some 311 ∧
    ∀ p : Nat, p ∈ primes 64 ↔ p.Prime ∧ p ≤ 311

/-- R135–R137: the ROMs hold the derivation's values, K over the first 64 primes and IV over the first 8. -/
def Obligations.RomsHoldTheDerivation : Prop :=
  kRom.toList = (primes 64).map roundConstantOf ∧ ivRom.toList = (primes 8).map initialValueOf

/-! ### The window -/

/-- 20_memory.md R74, R76, 10_state.md R47: an aligned 4-byte read in the window answers the register's value and changes nothing but the port. -/
def Obligations.AlignedReadAnswersRegister : Prop :=
  ∀ (s : State) (later : List Event) (off : Nat), off < 64 → off % 4 = 0 →
    s.inbox = .access (.read (shaBase s + off) 4) :: later →
    step s = .next { s with inbox := later, answer := .data (
      if off = 0x00 then 0
      else if off = 0x04 then statusWord s
      else if off = 0x08 then s.data
      else if off = 0x10 then s.bitlen.extractLsb' 0 32
      else if off = 0x14 then s.bitlen.extractLsb' 32 32
      else if 0x20 ≤ off then s.hash.toList.getD ((off - 0x20) / 4) 0
      else 0) }

/-- R75, R77: an aligned 4-byte write in the window executes a command at CTRL, stores DATA at 0x08, and has no effect anywhere else. -/
def Obligations.AlignedWriteEffect : Prop :=
  ∀ (s : State) (later : List Event) (off v : Nat), off < 64 → off % 4 = 0 →
    s.inbox = .access (.write (shaBase s + off) 4 v) :: later →
    step s =
      if off = 0x00 then executeCommand (BitVec.ofNat 32 v) { s with inbox := later, answer := .ok }
      else if off = 0x08 then .next { s with inbox := later, answer := .ok, data := BitVec.ofNat 32 v }
      else .next { s with inbox := later, answer := .ok }

/-- R73; 93_implementation_defined.md P6 (the model faults, log 4): an access in the window of another size than 4 bytes, or not aligned, is a BusError. -/
def Obligations.MisshapenAccessIsBusError : Prop :=
  ∀ (s : State) (later : List Event) (a : Access), s.inbox = .access a :: later →
    shaBase s ≤ accessAddr a → accessAddr a < shaBase s + 64 →
    accessSize a ≠ 4 ∨ (accessAddr a - shaBase s) % 4 ≠ 0 → step s = .fault .busError

/-- The model's choice (log 5) after R72 and 93_implementation_defined.md P5: an access outside the window is refused. -/
def Obligations.OutsideAccessIsRefused : Prop :=
  ∀ (s : State) (later : List Event) (a : Access), s.inbox = .access a :: later →
    accessAddr a < shaBase s ∨ shaBase s + 64 ≤ accessAddr a → step s = .refused .outsideWindow

/-- 44_commands.md R250: every other event has a next state: a step stops only at a host access, outside the window or of another shape than an aligned 4-byte access. -/
def Obligations.OnlyHostAccessesStop : Prop :=
  ∀ s : State, (∃ t, step s = .next t) ∨
    ∃ (a : Access) (later : List Event), s.inbox = .access a :: later ∧
      ((step s = .refused .outsideWindow ∧ ¬ (shaBase s ≤ accessAddr a ∧ accessAddr a < shaBase s + 64)) ∨
        (step s = .fault .busError ∧ (accessSize a ≠ 4 ∨ accessAddr a % 4 ≠ 0)))

/-- 10_state.md R49: the fields of STATUS at their bits, its reserved bits 0; a write to STATUS is ignored. -/
def Obligations.StatusFieldsAtTheirBits : Prop :=
  ∀ s : State,
    (statusWord s).getLsbD 0 = s.busy ∧
    ((statusWord s).getLsbD 1 = true ↔ s.phase = .done) ∧
    ((statusWord s).getLsbD 2 = true ↔ s.phase = .error) ∧
    (statusWord s).getLsbD 3 = s.padpend ∧
    (statusWord s).extractLsb' 4 3 =
      (match s.phase with | .idle => 0 | .opened => 1 | .finishing => 2 | .done => 3 | .error => 4) ∧
    (statusWord s).getLsbD 7 = false ∧
    (statusWord s).extractLsb' 8 4 = s.errcode ∧
    ((statusWord s).extractLsb' 12 6).toNat = s.fill.val ∧
    (statusWord s).extractLsb' 18 14 = 0 ∧
    ∀ v : Word, regWrite .status v s = .next s

/-- 20_memory.md R80: the bytes of ABSORB n, byte k being DATA[31−8k : 24−8k]; of DATA = BE32(b0, b1, b2, b3) four bytes are b0, b1, b2, b3 in that order. -/
def Obligations.DataByteLanes : Prop :=
  (∀ (d : Word) (n : Nat), n ≤ 4 → (messageBytes n d).length = n ∧
    ∀ k < n, (messageBytes n d)[k]? = some (d.extractLsb' (24 - 8 * k) 8)) ∧
  ∀ b0 b1 b2 b3 : Byte, messageBytes 4 (be32 b0 b1 b2 b3) = [b0, b1, b2, b3]

/-! ### Reset -/

/-- 70_reset_and_hazards.md R310: a reset, in any state, gives every element the spec states a reset value for that value, and abandons the block in flight. The
elements the spec leaves unspecified (log 3) are not named. -/
def Obligations.ResetEventClears : Prop :=
  ∀ (s : State) (later : List Event), s.inbox = .reset :: later →
    ∃ t, step s = .next t ∧ t.hash = Vector.replicate 8 0 ∧ t.fill = 0 ∧ t.bitlen = 0 ∧ t.data = 0 ∧
      t.phase = .idle ∧ t.busy = false ∧ t.padpend = false ∧ t.errcode = 0 ∧
      ∀ r : Reg, regRead t r = 0

/-- 10_state.md R54: after reset every register of the window reads 0, PHASE = IDLE and BUSY = 0, and the control state is coherent (R46). -/
def Obligations.ResetStateIsQuietAndCoherent : Prop :=
  (∀ r : Reg, regRead State.reset r = 0) ∧ State.reset.phase = .idle ∧ State.reset.busy = false ∧ Coherent State.reset

/-! ### The whole machine -/

/-- 10_state.md R46, 60_exceptions.md R281: every step keeps the invariants of the control state. -/
def Obligations.EveryStepKeepsCoherence : Prop :=
  ∀ s t : State, Coherent s → step s = .next t → Coherent t

/-- 41_padding_sequencer.md R169: the phase transitions: a step that changes PHASE is a reset, an INIT with BUSY = 0, an accepted FINAL, the feed-forward of the last padding
block, or an error raised. -/
def Obligations.PhaseTransitions : Prop :=
  ∀ s t : State, step s = .next t → t.phase ≠ s.phase →
    (nextIsReset s = true ∧ t.phase = .idle) ∨
    (nextCommand s = some .init ∧ s.busy = false ∧ t.phase = .opened) ∨
    (nextCommand s = some .final ∧ s.phase = .opened ∧ s.busy = false ∧ t.phase = .finishing ∧ t.busy = true) ∨
    (s.phase = .finishing ∧ s.padpend = false ∧ s.busy = true ∧ s.t.val = 64 ∧ t.phase = .done ∧ t.busy = false) ∨
    (s.phase ≠ .error ∧ t.phase = .error ∧ t.errcode ≠ 0)

/-- 10_state.md R31, 70_reset_and_hazards.md R316: a step that changes H is a reset, an INIT with BUSY = 0, or a feed-forward. -/
def Obligations.OnlyThreeThingsWriteHash : Prop :=
  ∀ s t : State, step s = .next t → t.hash ≠ s.hash →
    nextIsReset s = true ∨ (nextCommand s = some .init ∧ s.busy = false ∧ t.hash = ivRom) ∨
      ((∀ a later, s.inbox ≠ .access a :: later) ∧ s.busy = true ∧ s.t.val = 64 ∧ t.hash = feedForward s.hash s.work)

/-- R37: nothing but a host write to DATA and a reset changes DATA. -/
def Obligations.OnlyHostWriteOrResetChangesData : Prop :=
  ∀ s t : State, step s = .next t → t.data ≠ s.data →
    nextIsReset s = true ∨
      ∃ (v : Nat) (later : List Event), s.inbox = .access (.write (shaBase s + 0x08) 4 v) :: later ∧ t.data = BitVec.ofNat 32 v

/-- 44_commands.md R244, 10_state.md R36: after FINAL, in FINISHING, in DONE and in an ERROR entered from them, no step but an INIT with BUSY = 0 or a reset
changes BITLEN; nor does it in any other ERROR. -/
def Obligations.LengthFrozenAfterFinal : Prop :=
  ∀ s t : State, s.phase = .finishing ∨ s.phase = .done ∨ s.phase = .error → step s = .next t → t.bitlen ≠ s.bitlen →
    nextIsReset s = true ∨ (nextCommand s = some .init ∧ s.busy = false)

/-- 20_memory.md R71: no step moves the window. -/
def Obligations.NoStepMovesTheWindow : Prop :=
  ∀ s t : State, step s = .next t → shaBase t = shaBase s ∧ shaBase t % 64 = 0

/-- 10_state.md R46, R54, 92_eei_decisions.md D24: the bytes of BUF past FILL, and W, the working registers and t while BUSY = 0, never reach anything: two states that differ
there only go on to such states, and the host cannot tell them apart. -/
def Obligations.UnwrittenStorageNeverMatters : Prop :=
  ∀ s₁ s₂ : State, Indistinguishable s₁ s₂ → sameWindow s₁ s₂ ∧
    (∀ t₁, step s₁ = .next t₁ → ∃ t₂, step s₂ = .next t₂ ∧ Indistinguishable t₁ t₂) ∧
    (∀ f, step s₁ = .fault f → step s₂ = .fault f) ∧ (∀ r, step s₁ = .refused r → step s₂ = .refused r)

/-! ### Padding, chunks and sessions -/

/-- 41_padding_sequencer.md R160, R161: the zero count of pad is the least z with (L + 1 + z) mod 64 = 56, and the padded length is 64·nb(L). -/
def Obligations.PaddingIsMinimal : Prop :=
  ∀ m : List Byte, (m.length + 1 + zeroCount m.length) % 64 = 56 ∧
    (∀ z, (m.length + 1 + z) % 64 = 56 → zeroCount m.length ≤ z) ∧
    (pad m).length = 64 * blockCount m.length

/-- R162: the source's padding properties. -/
def Obligations.PaddingProperties : Prop :=
  (∀ m : List Byte, (pad m).length % 64 = 0 ∧ 64 ≤ (pad m).length) ∧
  (∀ m : List Byte, m.length < 2 ^ 61 →
    ((pad m).drop ((pad m).length - 8)).foldl (fun n b => 256 * n + b.toNat) 0 = 8 * m.length) ∧
  (∀ m : List Byte, m.length = 55 → (pad m).length = 64) ∧
  (∀ m : List Byte, m.length = 56 → (pad m).length = 128)

/-- R163: the 64-byte chunks of a sequence whose length is a multiple of 64, in order, are the sequence, and there are len/64 of them; any other length is a
StructuralInvariantViolation; a padded message has its chunks. -/
def Obligations.ChunksReconstructSequence : Prop :=
  (∀ p : List Byte, p.length % 64 = 0 →
    ∃ bs, chunks p = .ok bs ∧ bs.flatMap (·.toList) = p ∧ bs.length = p.length / 64) ∧
  (∀ p : List Byte, p.length % 64 ≠ 0 → chunks p = .error .structuralInvariantViolation) ∧
  ∀ m : List Byte, ∃ bs, chunks (pad m) = .ok bs

/-- 60_exceptions.md R282: no step reaches StructuralInvariantViolation, and no padded message does. -/
def Obligations.StructuralViolationIsUnreachable : Prop :=
  (∀ s : State, step s ≠ .fault .structuralInvariantViolation) ∧
    ∀ m : List Byte, chunks (pad m) ≠ .error .structuralInvariantViolation

/-- 41_padding_sequencer.md R168, 10_state.md R35, R36: in a session that has absorbed m, BITLEN is 8·len(m) mod 2^64, and while it is OPEN, FILL is len(m) mod 64 and BUF holds the
bytes since the last block. -/
def Obligations.SessionHoldsMessageTail : Prop :=
  ∀ (m : List Byte) (s : State), SessionRun m s →
    s.bitlen = BitVec.ofNat 64 (8 * m.length) ∧
    (s.phase = .opened → s.fill.val = m.length % 64 ∧ s.buf.toList.take s.fill.val = m.drop (64 * (m.length / 64)))

/-- 10_state.md R52, 41_padding_sequencer.md R168: in an OPEN session with BUSY = 0, H is the chaining value of the blocks completed so far. -/
def Obligations.OpenSessionHoldsChainingValue : Prop :=
  ∀ (m : List Byte) (s : State), SessionRun m s → s.phase = .opened → s.busy = false →
    s.hash = compressAll ((List.range (m.length / 64)).map (chunkAt m))

/-- 44_commands.md R246: once a session that absorbed m is DONE, H, which the DIGEST registers read, is digest(m). (No premise on the length: pad takes the length field
modulo 2^64, R170; for len(m) < 2^61 that is the source's digest.) And with BUSY = 0 in DONE, or in ERROR after it, no step but an INIT or a reset changes H, nor leaves those states. -/
def Obligations.SessionComputesDigest : Prop :=
  (∀ (m : List Byte) (s : State), SessionRun m s → s.phase = .done → digest m = .ok s.hash) ∧
  ∀ s t : State, s.phase = .done ∨ s.phase = .error → s.busy = false → step s = .next t →
    nextIsReset s = false → nextCommand s ≠ some .init →
    t.hash = s.hash ∧ t.busy = false ∧ (t.phase = .done ∨ t.phase = .error)

/-- R247: the digest a session ends with depends only on the bytes it absorbed. -/
def Obligations.SessionsAreIsolated : Prop :=
  ∀ (m : List Byte) (s₁ s₂ : State), SessionRun m s₁ → SessionRun m s₂ → s₁.phase = .done → s₂.phase = .done →
    s₁.hash = s₂.hash

/-! ### The host's programs -/

/-- 30_encoding.md R109: the host's turn at a command statement writes the command's word to CTRL, so it is exec of the command, and the host goes on to its next statement. -/
def Obligations.HostCommandStatementRunsCommand : Prop :=
  ∀ (y : System) (i : Instr), y.host.code[y.host.pc]? = some (.command i) →
    ∃ t, exec i { y.engine with answer := .ok } = .next t ∧
      hostTurn y = .ok { host := { y.host with pc := y.host.pc + 1 }, engine := t }
end

