-- ==== Sys2Proof/Laws/State.lean ====
section
/-! SUPPORT. The small lemmas beside State: for each named update, what every field is after it. Each is true by unfolding that update once, so that
no later proof unfolds one. -/

namespace Sys2Proof.Machine

@[simp] theorem raiseError_hash (c : Cause) (s : State) : (raiseError c s).hash = s.hash := rfl
@[simp] theorem raiseError_work (c : Cause) (s : State) : (raiseError c s).work = s.work := rfl
@[simp] theorem raiseError_sched (c : Cause) (s : State) : (raiseError c s).sched = s.sched := rfl
@[simp] theorem raiseError_t (c : Cause) (s : State) : (raiseError c s).t = s.t := rfl
@[simp] theorem raiseError_buf (c : Cause) (s : State) : (raiseError c s).buf = s.buf := rfl
@[simp] theorem raiseError_fill (c : Cause) (s : State) : (raiseError c s).fill = s.fill := rfl
@[simp] theorem raiseError_bitlen (c : Cause) (s : State) : (raiseError c s).bitlen = s.bitlen := rfl
@[simp] theorem raiseError_data (c : Cause) (s : State) : (raiseError c s).data = s.data := rfl
@[simp] theorem raiseError_phase (c : Cause) (s : State) : (raiseError c s).phase = .error := rfl
@[simp] theorem raiseError_busy (c : Cause) (s : State) : (raiseError c s).busy = s.busy := rfl
@[simp] theorem raiseError_padpend (c : Cause) (s : State) : (raiseError c s).padpend = false := rfl
@[simp] theorem raiseError_errcode (c : Cause) (s : State) : (raiseError c s).errcode = causeCode c := rfl
@[simp] theorem raiseError_basePage (c : Cause) (s : State) : (raiseError c s).basePage = s.basePage := rfl
@[simp] theorem raiseError_inbox (c : Cause) (s : State) : (raiseError c s).inbox = s.inbox := rfl
@[simp] theorem raiseError_answer (c : Cause) (s : State) : (raiseError c s).answer = s.answer := rfl

@[simp] theorem openSession_hash (s : State) : (openSession s).hash = ivRom := rfl
@[simp] theorem openSession_work (s : State) : (openSession s).work = s.work := rfl
@[simp] theorem openSession_sched (s : State) : (openSession s).sched = s.sched := rfl
@[simp] theorem openSession_t (s : State) : (openSession s).t = s.t := rfl
@[simp] theorem openSession_buf (s : State) : (openSession s).buf = s.buf := rfl
@[simp] theorem openSession_fill (s : State) : (openSession s).fill = 0 := rfl
@[simp] theorem openSession_bitlen (s : State) : (openSession s).bitlen = 0 := rfl
@[simp] theorem openSession_data (s : State) : (openSession s).data = s.data := rfl
@[simp] theorem openSession_phase (s : State) : (openSession s).phase = .opened := rfl
@[simp] theorem openSession_busy (s : State) : (openSession s).busy = s.busy := rfl
@[simp] theorem openSession_padpend (s : State) : (openSession s).padpend = false := rfl
@[simp] theorem openSession_errcode (s : State) : (openSession s).errcode = 0 := rfl
@[simp] theorem openSession_basePage (s : State) : (openSession s).basePage = s.basePage := rfl
@[simp] theorem openSession_inbox (s : State) : (openSession s).inbox = s.inbox := rfl
@[simp] theorem openSession_answer (s : State) : (openSession s).answer = s.answer := rfl

@[simp] theorem launch_hash (s : State) : (launch s).hash = s.hash := rfl
@[simp] theorem launch_work (s : State) : (launch s).work = workOf s.hash := rfl
@[simp] theorem launch_sched (s : State) : (launch s).sched = schedule s.buf := rfl
@[simp] theorem launch_t (s : State) : (launch s).t = 0 := rfl
@[simp] theorem launch_buf (s : State) : (launch s).buf = s.buf := rfl
@[simp] theorem launch_fill (s : State) : (launch s).fill = s.fill := rfl
@[simp] theorem launch_bitlen (s : State) : (launch s).bitlen = s.bitlen := rfl
@[simp] theorem launch_data (s : State) : (launch s).data = s.data := rfl
@[simp] theorem launch_phase (s : State) : (launch s).phase = s.phase := rfl
@[simp] theorem launch_busy (s : State) : (launch s).busy = true := rfl
@[simp] theorem launch_padpend (s : State) : (launch s).padpend = s.padpend := rfl
@[simp] theorem launch_errcode (s : State) : (launch s).errcode = s.errcode := rfl
@[simp] theorem launch_basePage (s : State) : (launch s).basePage = s.basePage := rfl
@[simp] theorem launch_inbox (s : State) : (launch s).inbox = s.inbox := rfl
@[simp] theorem launch_answer (s : State) : (launch s).answer = s.answer := rfl

@[simp] theorem finalPad_hash (s : State) : (finalPad s).hash = s.hash := rfl
@[simp] theorem finalPad_work (s : State) : (finalPad s).work = workOf s.hash := rfl
@[simp] theorem finalPad_sched (s : State) : (finalPad s).sched = schedule (finalBlock s.buf s.fill s.bitlen) := rfl
@[simp] theorem finalPad_t (s : State) : (finalPad s).t = 0 := rfl
@[simp] theorem finalPad_buf (s : State) : (finalPad s).buf = finalBlock s.buf s.fill s.bitlen := rfl
@[simp] theorem finalPad_fill (s : State) : (finalPad s).fill = 0 := rfl
@[simp] theorem finalPad_bitlen (s : State) : (finalPad s).bitlen = s.bitlen := rfl
@[simp] theorem finalPad_data (s : State) : (finalPad s).data = s.data := rfl
@[simp] theorem finalPad_phase (s : State) : (finalPad s).phase = .finishing := rfl
@[simp] theorem finalPad_busy (s : State) : (finalPad s).busy = true := rfl
@[simp] theorem finalPad_padpend (s : State) : (finalPad s).padpend = decide (55 < s.fill.val) := rfl
@[simp] theorem finalPad_errcode (s : State) : (finalPad s).errcode = s.errcode := rfl
@[simp] theorem finalPad_basePage (s : State) : (finalPad s).basePage = s.basePage := rfl
@[simp] theorem finalPad_inbox (s : State) : (finalPad s).inbox = s.inbox := rfl
@[simp] theorem finalPad_answer (s : State) : (finalPad s).answer = s.answer := rfl

@[simp] theorem roundStep_hash (s : State) (h : s.t.val < 64) : (roundStep s h).hash = s.hash := rfl
@[simp] theorem roundStep_work (s : State) (h : s.t.val < 64) : (roundStep s h).work = oneRound ⟨s.t.val, h⟩ s.sched s.work := rfl
@[simp] theorem roundStep_sched (s : State) (h : s.t.val < 64) : (roundStep s h).sched = s.sched := rfl
@[simp] theorem roundStep_t (s : State) (h : s.t.val < 64) : (roundStep s h).t = ⟨s.t.val + 1, by omega⟩ := rfl
@[simp] theorem roundStep_buf (s : State) (h : s.t.val < 64) : (roundStep s h).buf = s.buf := rfl
@[simp] theorem roundStep_fill (s : State) (h : s.t.val < 64) : (roundStep s h).fill = s.fill := rfl
@[simp] theorem roundStep_bitlen (s : State) (h : s.t.val < 64) : (roundStep s h).bitlen = s.bitlen := rfl
@[simp] theorem roundStep_data (s : State) (h : s.t.val < 64) : (roundStep s h).data = s.data := rfl
@[simp] theorem roundStep_phase (s : State) (h : s.t.val < 64) : (roundStep s h).phase = s.phase := rfl
@[simp] theorem roundStep_busy (s : State) (h : s.t.val < 64) : (roundStep s h).busy = s.busy := rfl
@[simp] theorem roundStep_padpend (s : State) (h : s.t.val < 64) : (roundStep s h).padpend = s.padpend := rfl
@[simp] theorem roundStep_errcode (s : State) (h : s.t.val < 64) : (roundStep s h).errcode = s.errcode := rfl
@[simp] theorem roundStep_basePage (s : State) (h : s.t.val < 64) : (roundStep s h).basePage = s.basePage := rfl
@[simp] theorem roundStep_inbox (s : State) (h : s.t.val < 64) : (roundStep s h).inbox = s.inbox := rfl
@[simp] theorem roundStep_answer (s : State) (h : s.t.val < 64) : (roundStep s h).answer = s.answer := rfl

@[simp] theorem awaiting_hash (l : List Event) (s : State) : (awaiting l s).hash = s.hash := rfl
@[simp] theorem awaiting_work (l : List Event) (s : State) : (awaiting l s).work = s.work := rfl
@[simp] theorem awaiting_sched (l : List Event) (s : State) : (awaiting l s).sched = s.sched := rfl
@[simp] theorem awaiting_t (l : List Event) (s : State) : (awaiting l s).t = s.t := rfl
@[simp] theorem awaiting_buf (l : List Event) (s : State) : (awaiting l s).buf = s.buf := rfl
@[simp] theorem awaiting_fill (l : List Event) (s : State) : (awaiting l s).fill = s.fill := rfl
@[simp] theorem awaiting_bitlen (l : List Event) (s : State) : (awaiting l s).bitlen = s.bitlen := rfl
@[simp] theorem awaiting_data (l : List Event) (s : State) : (awaiting l s).data = s.data := rfl
@[simp] theorem awaiting_phase (l : List Event) (s : State) : (awaiting l s).phase = s.phase := rfl
@[simp] theorem awaiting_busy (l : List Event) (s : State) : (awaiting l s).busy = s.busy := rfl
@[simp] theorem awaiting_padpend (l : List Event) (s : State) : (awaiting l s).padpend = s.padpend := rfl
@[simp] theorem awaiting_errcode (l : List Event) (s : State) : (awaiting l s).errcode = s.errcode := rfl
@[simp] theorem awaiting_basePage (l : List Event) (s : State) : (awaiting l s).basePage = s.basePage := rfl
@[simp] theorem awaiting_inbox (l : List Event) (s : State) : (awaiting l s).inbox = l := rfl
@[simp] theorem awaiting_answer (l : List Event) (s : State) : (awaiting l s).answer = .nothing := rfl

@[simp] theorem resetEngine_hash (s : State) : (resetEngine s).hash = State.reset.hash := rfl
@[simp] theorem resetEngine_work (s : State) : (resetEngine s).work = State.reset.work := rfl
@[simp] theorem resetEngine_sched (s : State) : (resetEngine s).sched = State.reset.sched := rfl
@[simp] theorem resetEngine_t (s : State) : (resetEngine s).t = State.reset.t := rfl
@[simp] theorem resetEngine_buf (s : State) : (resetEngine s).buf = State.reset.buf := rfl
@[simp] theorem resetEngine_fill (s : State) : (resetEngine s).fill = State.reset.fill := rfl
@[simp] theorem resetEngine_bitlen (s : State) : (resetEngine s).bitlen = State.reset.bitlen := rfl
@[simp] theorem resetEngine_data (s : State) : (resetEngine s).data = State.reset.data := rfl
@[simp] theorem resetEngine_phase (s : State) : (resetEngine s).phase = State.reset.phase := rfl
@[simp] theorem resetEngine_busy (s : State) : (resetEngine s).busy = State.reset.busy := rfl
@[simp] theorem resetEngine_padpend (s : State) : (resetEngine s).padpend = State.reset.padpend := rfl
@[simp] theorem resetEngine_errcode (s : State) : (resetEngine s).errcode = State.reset.errcode := rfl
@[simp] theorem resetEngine_basePage (s : State) : (resetEngine s).basePage = s.basePage := rfl
@[simp] theorem resetEngine_inbox (s : State) : (resetEngine s).inbox = s.inbox := rfl
@[simp] theorem resetEngine_answer (s : State) : (resetEngine s).answer = State.reset.answer := rfl

@[simp] theorem shaBase_awaiting (l : List Event) (s : State) : shaBase (awaiting l s) = shaBase s := rfl

theorem shaBase_mod (s : State) : shaBase s % 64 = 0 := by simp [shaBase]

/-- A state with the fields of another is that state, one field at a time. -/
@[ext] theorem State.ext_fields {s t : State} (h1 : s.hash = t.hash) (h2 : s.work = t.work) (h3 : s.sched = t.sched)
    (h4 : s.t = t.t) (h5 : s.buf = t.buf) (h6 : s.fill = t.fill) (h7 : s.bitlen = t.bitlen) (h8 : s.data = t.data)
    (h9 : s.phase = t.phase) (h10 : s.busy = t.busy) (h11 : s.padpend = t.padpend) (h12 : s.errcode = t.errcode)
    (h13 : s.basePage = t.basePage) (h14 : s.inbox = t.inbox) (h15 : s.answer = t.answer) : s = t := by
  cases s; cases t; simp_all

end Sys2Proof.Machine
end

