-- ==== Sys2Proof/Laws/Ops.lean ====
section
/-! SUPPORT. For each shared operation, once, everything it can do: byte runs in a block, the sequencer, the engine's step, the window. -/

namespace Sys2Proof.Machine

/-! ### Byte lists -/

@[simp] theorem length_be32Bytes (x : Word) : (be32Bytes x).length = 4 := rfl

@[simp] theorem length_be64Bytes (v : DWord) : (be64Bytes v).length = 8 := rfl

@[simp] theorem length_zeros (n : Nat) : (zeros n).length = n := by simp [zeros]

theorem getElem_zeros (n i : Nat) (h : i < (zeros n).length) : (zeros n)[i] = 0 := by simp [zeros]

@[simp] theorem length_messageBytes (n : Nat) (d : Word) : (messageBytes n d).length = min n 4 := by simp [messageBytes]

theorem byteCount_le (nbm1 : BitVec 2) : byteCount nbm1 ≤ 4 := by have := nbm1.isLt; simp [byteCount]; omega

theorem byteCount_pos (nbm1 : BitVec 2) : 0 < byteCount nbm1 := by simp [byteCount]

/-- A run of bytes written into a block: those bytes in their places, every other byte as it was. -/
theorem getElem_writeBytes (bs : List Byte) (buf : Block) (i j : Nat) (hj : j < 64) :
    (writeBytes buf i bs)[j] = if h : i ≤ j ∧ j < i + bs.length then bs[j - i] else buf[j] := by
  induction bs generalizing buf i with
  | nil => simp [writeBytes]
  | cons b bs ih =>
    rw [writeBytes, ih]
    by_cases h1 : i + 1 ≤ j ∧ j < i + 1 + bs.length
    · rw [dif_pos h1, dif_pos (by simp; omega)]
      have : j - i = (j - (i + 1)) + 1 := by omega
      simp [this]
    · rw [dif_neg h1]
      by_cases h2 : j = i
      · subst h2; rw [dif_pos (by simp)]; simp
      · rw [dif_neg (by simp; omega)]
        rw [Vector.getElem_setIfInBounds_ne hj (Ne.symm h2)]

/-! ### The sequencer -/

@[simp] theorem absorbBytes_nil (s : State) : absorbBytes s [] = s := rfl

@[simp] theorem absorbBytes_cons (s : State) (b : Byte) (bs : List Byte) :
    absorbBytes s (b :: bs) = absorbBytes (absorbByte s b) bs := rfl

/-- R165, the byte that does not fill the block. -/
theorem absorbByte_room (s : State) (b : Byte) (h : s.fill.val < 63) :
    absorbByte s b = { s with buf := s.buf.set s.fill.val b, bitlen := s.bitlen + 8, fill := ⟨s.fill.val + 1, by omega⟩ } := by
  rw [absorbByte, dif_neg (by omega)]

/-- R165, the 64th byte. -/
theorem absorbByte_full (s : State) (b : Byte) (h : s.fill.val = 63) :
    absorbByte s b = { launch { s with buf := s.buf.set s.fill.val b, bitlen := s.bitlen + 8 } with fill := 0 } := by
  rw [absorbByte, dif_pos h]

/-- R165: what absorbing a byte leaves. -/
theorem absorbByte_frame (s : State) (b : Byte) :
    (absorbByte s b).hash = s.hash ∧ (absorbByte s b).data = s.data ∧ (absorbByte s b).phase = s.phase ∧
      (absorbByte s b).padpend = s.padpend ∧ (absorbByte s b).errcode = s.errcode ∧
      (absorbByte s b).basePage = s.basePage ∧ (absorbByte s b).inbox = s.inbox ∧ (absorbByte s b).answer = s.answer := by
  unfold absorbByte
  simp only []
  split <;> exact ⟨rfl, rfl, rfl, rfl, rfl, rfl, rfl, rfl⟩

/-- R165: what absorbing bytes leaves. -/
theorem absorbBytes_frame (bs : List Byte) (s : State) :
    (absorbBytes s bs).hash = s.hash ∧ (absorbBytes s bs).data = s.data ∧ (absorbBytes s bs).phase = s.phase ∧
      (absorbBytes s bs).padpend = s.padpend ∧ (absorbBytes s bs).errcode = s.errcode ∧
      (absorbBytes s bs).basePage = s.basePage ∧ (absorbBytes s bs).inbox = s.inbox ∧
      (absorbBytes s bs).answer = s.answer := by
  induction bs generalizing s with
  | nil => exact ⟨rfl, rfl, rfl, rfl, rfl, rfl, rfl, rfl⟩
  | cons b bs ih => have := ih (absorbByte s b); have := absorbByte_frame s b; simp_all

theorem absorbBytes_append (s : State) (bs cs : List Byte) :
    absorbBytes s (bs ++ cs) = absorbBytes (absorbBytes s bs) cs := List.foldl_append

/-- R243, R165: bytes for which the block has room. -/
theorem absorbBytes_room (bs : List Byte) (s : State) (h : s.fill.val + bs.length < 64) :
    absorbBytes s bs = { s with
      buf := writeBytes s.buf s.fill.val bs, bitlen := s.bitlen + 8 * BitVec.ofNat 64 bs.length,
      fill := ⟨s.fill.val + bs.length, h⟩ } := by
  induction bs generalizing s with
  | nil => simp [writeBytes]
  | cons b bs ih =>
    have hl : s.fill.val + (bs.length + 1) < 64 := by simpa using h
    rw [absorbBytes_cons, absorbByte_room s b (by omega), ih _ (by simp; omega)]
    simp only [writeBytes, List.length_cons, State.mk.injEq, true_and, and_true]
    refine ⟨?_, ?_, ?_⟩
    · rw [show s.buf.setIfInBounds s.fill.val b = s.buf.set s.fill.val b by
        ext i hi; simp [Vector.getElem_setIfInBounds, Vector.getElem_set]]
    · apply Fin.ext; simp; omega
    · rw [BitVec.ofNat_add, BitVec.add_assoc]; congr 1; bv_omega

/-- R243, R165: bytes that fill the block: it launches, and the further bytes go to the front of the emptied buffer. -/
theorem absorbBytes_full (s : State) (bs cs : List Byte) (h : s.fill.val + bs.length = 64) (hb : bs ≠ [])
    (hc : cs.length < 64) :
    absorbBytes s (bs ++ cs) = { s with
      buf := writeBytes (writeBytes s.buf s.fill.val bs) 0 cs,
      bitlen := s.bitlen + 8 * BitVec.ofNat 64 (bs.length + cs.length), fill := ⟨cs.length, hc⟩,
      sched := schedule (writeBytes s.buf s.fill.val bs), work := workOf s.hash, t := 0, busy := true } := by
  obtain ⟨front, b, rfl⟩ : ∃ front b, bs = front ++ [b] := ⟨_, _, (List.dropLast_append_getLast hb).symm⟩
  have hf : s.fill.val + front.length = 63 := by simp at h; omega
  have hw : ∀ (buf : Block) (i : Nat) (l : List Byte), i + l.length = 63 →
      writeBytes buf i (l ++ [b]) = (writeBytes buf i l).set 63 b := by
    intro buf i l
    induction l generalizing buf i with
    | nil => intro hi; obtain rfl : i = 63 := by simpa using hi
             ext j hj; simp [writeBytes, Vector.getElem_setIfInBounds, Vector.getElem_set]
    | cons c l ih => intro hi; exact ih _ _ (by simp at hi; omega)
  rw [absorbBytes_append, absorbBytes_append, absorbBytes_room front s (by omega)]
  simp only [absorbBytes_cons, absorbBytes_nil]
  rw [absorbByte_full _ _ (by simpa using hf), absorbBytes_room _ _ (by simpa using hc)]
  simp only [launch, hf, State.mk.injEq, true_and, and_true]
  rw [hw _ _ _ hf]
  refine ⟨rfl, rfl, Fin.ext (Nat.zero_add _), ?_⟩
  simp only [List.length_append, List.length_singleton, BitVec.ofNat_add]
  bv_omega

/-- R284 for ABSORB and FINAL: the four outcomes of the checks. -/
theorem inOpenSession_cases (body : State → State) (s : State) :
    (s.phase = .error ∧ inOpenSession body s = s) ∨
    (s.phase ≠ .error ∧ s.busy = true ∧ inOpenSession body s = raiseError .busyViolation s) ∨
    (s.phase ≠ .error ∧ s.phase ≠ .opened ∧ s.busy = false ∧ inOpenSession body s = raiseError .sequence s) ∨
    (s.phase = .opened ∧ s.busy = false ∧ inOpenSession body s = body s) := by
  unfold inOpenSession
  split
  · exact .inl ⟨‹_›, rfl⟩
  · split
    · exact .inr (.inl ⟨‹_›, ‹_›, rfl⟩)
    · split
      · exact .inr (.inr (.inl ⟨‹_›, ‹_›, by simp_all, rfl⟩))
      · exact .inr (.inr (.inr ⟨by simp_all, by simp_all, rfl⟩))

theorem inOpenSession_open (body : State → State) (s : State) (h : s.phase = .opened) (hb : s.busy = false) :
    inOpenSession body s = body s := by
  simp [inOpenSession, h, hb]

/-- R284 for INIT: the three outcomes. -/
theorem execInit_cases (s : State) :
    (s.busy = true ∧ s.phase = .error ∧ execInit s = .next s) ∨
    (s.busy = true ∧ s.phase ≠ .error ∧ execInit s = .next (raiseError .busyViolation s)) ∨
    (s.busy = false ∧ execInit s = .next (openSession s)) := by
  unfold execInit
  split
  · split
    · exact .inl ⟨‹_›, ‹_›, rfl⟩
    · exact .inr (.inl ⟨‹_›, ‹_›, rfl⟩)
  · exact .inr (.inr ⟨by simp_all, rfl⟩)

/-- R167: the three outcomes of a completed block. -/
theorem afterBlock_cases (s : State) :
    (s.phase = .finishing ∧ s.padpend = true ∧
      afterBlock s = launch { s with buf := lengthBlock s.buf s.bitlen, padpend := false }) ∨
    (s.phase = .finishing ∧ s.padpend = false ∧ afterBlock s = { s with phase := .done, busy := false }) ∨
    (s.phase ≠ .finishing ∧ afterBlock s = { s with busy := false }) := by
  unfold afterBlock
  split
  · exact .inl ⟨‹_ ∧ _›.1, ‹_ ∧ _›.2, rfl⟩
  · split
    · exact .inr (.inl ⟨‹_›, by simp_all, rfl⟩)
    · exact .inr (.inr ⟨‹_›, rfl⟩)

/-- R39, R220, R221: what the engine's turn does. -/
theorem engineStep_cases (s : State) :
    (s.busy = false ∧ engineStep s = s) ∨
    (∃ h : s.t.val < 64, s.busy = true ∧ engineStep s = roundStep s h) ∨
    (s.busy = true ∧ s.t.val = 64 ∧ engineStep s = feedForwardStep s) := by
  unfold engineStep
  split
  · split
    · exact .inr (.inl ⟨‹_›, ‹_›, rfl⟩)
    · exact .inr (.inr ⟨‹_›, by omega, rfl⟩)
  · exact .inl ⟨by simp_all, rfl⟩

/-- R220: the engine's turn at a round step. -/
theorem engineStep_round (s : State) (hb : s.busy = true) (h : s.t.val < 64) : engineStep s = roundStep s h := by
  rw [engineStep, if_pos hb, dif_pos h]

/-- R221: the engine's turn at the feed-forward. -/
theorem engineStep_feedForward (s : State) (hb : s.busy = true) (h : s.t.val = 64) : engineStep s = feedForwardStep s := by
  rw [engineStep, if_pos hb, dif_neg (by omega)]

/-- The engine never touches DATA, FILL, BITLEN or ERRCODE, nor what is the model's own (R220, R221). -/
theorem engineStep_frame (s : State) :
    (engineStep s).data = s.data ∧ (engineStep s).fill = s.fill ∧ (engineStep s).bitlen = s.bitlen ∧
      (engineStep s).errcode = s.errcode ∧ (engineStep s).basePage = s.basePage ∧ (engineStep s).inbox = s.inbox ∧
      (engineStep s).answer = s.answer := by
  rcases engineStep_cases s with ⟨-, h⟩ | ⟨_, -, h⟩ | ⟨-, -, h⟩ <;> rw [h]
  · exact ⟨rfl, rfl, rfl, rfl, rfl, rfl, rfl⟩
  · exact ⟨rfl, rfl, rfl, rfl, rfl, rfl, rfl⟩
  · rw [feedForwardStep]
    rcases afterBlock_cases { s with hash := feedForward s.hash s.work } with ⟨-, -, h⟩ | ⟨-, -, h⟩ | ⟨-, h⟩ <;> rw [h] <;>
      exact ⟨rfl, rfl, rfl, rfl, rfl, rfl, rfl⟩

/-- R221: H after the feed-forward, whatever AfterBlock does. -/
theorem feedForwardStep_hash (s : State) : (feedForwardStep s).hash = feedForward s.hash s.work := by
  rw [feedForwardStep]
  rcases afterBlock_cases { s with hash := feedForward s.hash s.work } with ⟨-, -, h⟩ | ⟨-, -, h⟩ | ⟨-, h⟩
  · rw [h, launch_hash]
  · rw [h]
  · rw [h]

/-- R10: byte k of BE64bytes. -/
theorem getElem_be64Bytes (v : DWord) (k : Nat) (h : k < (be64Bytes v).length) :
    (be64Bytes v)[k] = v.extractLsb' (56 - 8 * k) 8 := by
  have hk : k < 8 := by simpa using h
  have : k = 0 ∨ k = 1 ∨ k = 2 ∨ k = 3 ∨ k = 4 ∨ k = 5 ∨ k = 6 ∨ k = 7 := by omega
  rcases this with rfl | rfl | rfl | rfl | rfl | rfl | rfl | rfl <;> ext j hj <;> simp [be64Bytes, be32Bytes] <;>
    first
    | (rw [← Nat.add_assoc]; simp; omega)
    | omega

/-- R167: the bytes of the second padding block. -/
theorem getElem_lengthBlock (buf : Block) (bitlen : DWord) (i : Nat) (h : i < 64) :
    (lengthBlock buf bitlen)[i] = if i < 56 then 0 else bitlen.extractLsb' (56 - 8 * (i - 56)) 8 := by
  rw [lengthBlock, getElem_writeBytes _ _ _ _ h, dif_pos (by simp; omega), List.getElem_append]
  split
  · rename_i h2; rw [if_pos (by simpa using h2), getElem_zeros]
  · rename_i h2; rw [if_neg (by simpa using h2), getElem_be64Bytes]; simp

/-- R166: the bytes of the first padding block. -/
theorem getElem_finalBlock (buf : Block) (f : Fin 64) (bitlen : DWord) (i : Nat) (h : i < 64) :
    (finalBlock buf f bitlen)[i] =
      if i < f.val then buf[i]
      else if i = f.val then 0x80
      else if 56 ≤ i ∧ f.val ≤ 55 then bitlen.extractLsb' (56 - 8 * (i - 56)) 8
      else 0 := by
  unfold finalBlock
  simp only []
  split
  · rename_i hf
    rw [getElem_writeBytes _ _ _ _ h]
    by_cases hi : f.val + 1 ≤ i
    · rw [dif_pos (by simp; omega), if_neg (by omega), if_neg (by omega), List.getElem_append]
      split
      · rename_i h2; simp at h2; rw [if_neg (by omega), getElem_zeros]
      · rename_i h2; simp at h2; rw [if_pos (by omega), getElem_be64Bytes]; congr 1; simp; omega
    · rw [dif_neg (by omega), Vector.getElem_set]
      grind
  · rename_i hf
    rw [getElem_writeBytes _ _ _ _ h]
    by_cases hi : f.val + 1 ≤ i
    · rw [dif_pos (by simp; omega), if_neg (by omega), if_neg (by omega), if_neg (by omega), getElem_zeros]
    · rw [dif_neg (by omega), Vector.getElem_set]
      grind

/-! ### The window -/

theorem windowOffset_some (s : State) (addr : Nat) (off : Fin 64) :
    windowOffset s addr = some off ↔ addr = shaBase s + off.val := by
  unfold windowOffset
  split
  · simp only [Option.some.injEq, Fin.ext_iff]; omega
  · simp only [reduceCtorEq, false_iff]; omega

theorem windowOffset_none (s : State) (addr : Nat) :
    windowOffset s addr = none ↔ addr < shaBase s ∨ shaBase s + 64 ≤ addr := by
  unfold windowOffset
  split
  · simp only [reduceCtorEq, false_iff]; omega
  · simp only [true_iff]; omega

/-- R47: which offsets hold CTRL and DATA. -/
theorem regAt_ctrl (off : Fin 64) : regAt off = .ctrl ↔ off.val / 4 = 0 := by
  revert off; decide +kernel

theorem regAt_data (off : Fin 64) : regAt off = .data ↔ off.val / 4 = 2 := by
  revert off; decide +kernel

/-- R75: a write elsewhere than CTRL and DATA has no effect. -/
theorem regWrite_other (r : Reg) (v : Word) (s : State) (h1 : r ≠ .ctrl) (h2 : r ≠ .data) : regWrite r v s = .next s := by
  cases r <;> first | rfl | exact absurd rfl h1 | exact absurd rfl h2

end Sys2Proof.Machine
end

