-- ==== Sys2Proof/Laws/PerInstr.lean ====
section
/-! SUPPORT. Statements made per instruction. Encoding: a command's fields are legal (30_encoding.md R104) and its word holds exactly those fields
(R100). -/

namespace Sys2Proof.Laws.Encoding

/-- R100, R104: the fields of i are a legal command, and the word of i splits into them. -/
def Statement (i : Instr) : Prop := i.wellFormed = true ∧ splitWord (encode i) = i.fields

theorem nop : Statement .nop := by unfold Statement; decide

theorem init : Statement .init := by unfold Statement; decide

theorem absorb (nbm1 : BitVec 2) : Statement (.absorb nbm1) := by
  revert nbm1; unfold Statement; decide

theorem final : Statement .final := by unfold Statement; decide

end Sys2Proof.Laws.Encoding
end

