-- ==== Sys2Proof/Laws/Step.lean ====
section
/-! SUPPORT. What one step can do, said once: every step that answers a next state is one of the seven cases of `StepCase`. -/

namespace Sys2Proof.Machine

theorem exec_nop (s : State) : exec .nop s = .next s := rfl
theorem exec_init (s : State) : exec .init s = execInit s := rfl
theorem exec_absorb (n : BitVec 2) (s : State) :
    exec (.absorb n) s = .next (inOpenSession (fun s => absorbBytes s (messageBytes (byteCount n) s.data)) s) := rfl
theorem exec_final (s : State) : exec .final s = .next (inOpenSession finalPad s) := rfl

/-- Every command ends in a next state (44_commands.md R240, 60_exceptions.md R280). -/
theorem exec_answers_next (i : Instr) (s : State) : ∃ t, exec i s = .next t := by
  cases i with
  | nop => exact ⟨s, rfl⟩
  | init => rcases execInit_cases s with ⟨-, -, h⟩ | ⟨-, -, h⟩ | ⟨-, h⟩ <;> exact ⟨_, h⟩
  | absorb n => exact ⟨_, rfl⟩
  | final => exact ⟨_, rfl⟩

/-- What a command can do (60_exceptions.md R284): nothing, an error, or its own rule. -/
inductive ExecCase (i : Instr) (s t : State) : Prop where
  | same : t = s → (i = .nop ∨ s.phase = .error) → ExecCase i s t
  | raise (c : Cause) : t = raiseError c s → s.phase ≠ .error → ExecCase i s t
  | init : i = .init → s.busy = false → t = openSession s → ExecCase i s t
  | absorb (n : BitVec 2) : i = .absorb n → s.phase = .opened → s.busy = false → t = absorbBytes s (messageBytes (byteCount n) s.data) → ExecCase i s t
  | final : i = .final → s.phase = .opened → s.busy = false → t = finalPad s → ExecCase i s t

/-- The inversion of `exec`. -/
theorem exec_cases {i : Instr} {s t : State} (h : exec i s = .next t) : ExecCase i s t := by
  cases i with
  | nop => cases h; exact .same rfl (.inl rfl)
  | init =>
    rcases execInit_cases s with ⟨hb, hp, he⟩ | ⟨hb, hp, he⟩ | ⟨hb, he⟩ <;> rw [exec_init, he] at h <;> cases h
    · exact .same rfl (.inr hp)
    · exact .raise _ rfl hp
    · exact .init rfl hb rfl
  | absorb n =>
    rw [exec_absorb] at h; cases h
    rcases inOpenSession_cases (fun s => absorbBytes s (messageBytes (byteCount n) s.data)) s with ⟨hp, he⟩ | ⟨hp, hb, he⟩ | ⟨hp, ho, hb, he⟩ | ⟨hp, hb, he⟩
    · exact .same he (.inr hp)
    · exact .raise _ he hp
    · exact .raise _ he hp
    · exact .absorb n rfl hp hb he
  | final =>
    rw [exec_final] at h; cases h
    rcases inOpenSession_cases finalPad s with ⟨hp, he⟩ | ⟨hp, hb, he⟩ | ⟨hp, ho, hb, he⟩ | ⟨hp, hb, he⟩
    · exact .same he (.inr hp)
    · exact .raise _ he hp
    · exact .raise _ he hp
    · exact .final rfl hp hb he

/-- The ways in which a step leads from s to t. -/
inductive StepCase (s t : State) : Prop where
  /-- The engine's turn, given by an event or because none is pending. -/
  | engine (later : List Event) :
      s.inbox = .engineTurn :: later ∨ (s.inbox = [] ∧ later = []) → t = engineStep (awaiting later s) → StepCase s t
  /-- A reset. -/
  | reset (later : List Event) : s.inbox = .reset :: later → t = resetEngine (awaiting later s) → StepCase s t
  /-- An accepted read. -/
  | read (later : List Event) (off : Fin 64) : off.val % 4 = 0 →
      s.inbox = .access (.read (shaBase s + off.val) 4) :: later →
      t = { s with inbox := later, answer := .data (regRead s (regAt off)) } → StepCase s t
  /-- A legal command word written to CTRL. -/
  | command (later : List Event) (v : Nat) (i : Instr) :
      s.inbox = .access (.write (shaBase s) 4 v) :: later → decode (BitVec.ofNat 32 v) = .ok i →
      exec i { s with inbox := later, answer := .ok } = .next t → StepCase s t
  /-- An Illegal word written to CTRL. -/
  | illegal (later : List Event) (v : Nat) (e : IllegalWord) :
      s.inbox = .access (.write (shaBase s) 4 v) :: later → decode (BitVec.ofNat 32 v) = .error e →
      t = executeIllegal { s with inbox := later, answer := .ok } → StepCase s t
  /-- A write to DATA. -/
  | data (later : List Event) (v : Nat) :
      s.inbox = .access (.write (shaBase s + 8) 4 v) :: later →
      t = { s with inbox := later, answer := .ok, data := BitVec.ofNat 32 v } → StepCase s t
  /-- An accepted write that has no effect. -/
  | ignored (later : List Event) (off : Fin 64) (v : Nat) : off.val % 4 = 0 → off.val ≠ 0 → off.val ≠ 8 →
      s.inbox = .access (.write (shaBase s + off.val) 4 v) :: later →
      t = { s with inbox := later, answer := .ok } → StepCase s t

theorem step_nil (s : State) (h : s.inbox = []) : step s = .next (engineStep (awaiting [] s)) := by
  simp [step, runNext, h, runEvent]

theorem step_cons (s : State) (e : Event) (later : List Event) (h : s.inbox = e :: later) :
    step s = runEvent e (awaiting later s) := by
  simp [step, runNext, h]

/-- An aligned 4-byte access in the window reaches its register. -/
theorem step_access (s : State) (a : Access) (later : List Event) (off : Fin 64) (h : s.inbox = .access a :: later)
    (ha : accessAddr a = shaBase s + off.val) (hs : accessSize a = 4) (ho : off.val % 4 = 0) :
    step s = accessReg a (regAt off) (awaiting later s) := by
  rw [step_cons s _ later h, runEvent, portAccess, (windowOffset_some _ _ off).2 (by simpa using ha)]
  simp [hs, ho]

theorem step_write (s : State) (later : List Event) (off : Fin 64) (v : Nat) (ho : off.val % 4 = 0)
    (h : s.inbox = .access (.write (shaBase s + off.val) 4 v) :: later) :
    step s = regWrite (regAt off) (BitVec.ofNat 32 v) { s with inbox := later, answer := .ok } :=
  step_access s _ later off h rfl rfl ho

/-- A write of the word v to CTRL executes it as a command. -/
theorem step_ctrl (s : State) (later : List Event) (v : Nat) (h : s.inbox = .access (.write (shaBase s) 4 v) :: later) :
    step s = executeCommand (BitVec.ofNat 32 v) { s with inbox := later, answer := .ok } := by
  rw [step_write s later 0 v rfl (by simpa using h), (regAt_ctrl 0).2 rfl]; rfl

theorem step_read (s : State) (later : List Event) (off : Fin 64) (ho : off.val % 4 = 0)
    (h : s.inbox = .access (.read (shaBase s + off.val) 4) :: later) :
    step s = .next { s with inbox := later, answer := .data (regRead s (regAt off)) } := by
  rw [step_access s _ later off h rfl rfl ho]
  cases hr : regAt off <;> rfl

/-- What a host access can do: it is refused, it is a BusError, or it reaches a register. -/
theorem step_of_access (s : State) (a : Access) (later : List Event) (h : s.inbox = .access a :: later) :
    ((accessAddr a < shaBase s ∨ shaBase s + 64 ≤ accessAddr a) ∧ step s = .refused .outsideWindow) ∨
    (∃ off : Fin 64, accessAddr a = shaBase s + off.val ∧
      (((accessSize a ≠ 4 ∨ off.val % 4 ≠ 0) ∧ step s = .fault .busError) ∨
        (accessSize a = 4 ∧ off.val % 4 = 0 ∧ step s = accessReg a (regAt off) (awaiting later s)))) := by
  have hstep := step_cons s _ later h
  rw [runEvent, portAccess] at hstep
  cases ho : windowOffset (awaiting later s) (accessAddr a) with
  | none => rw [ho] at hstep; exact .inl ⟨by simpa using (windowOffset_none _ _).1 ho, hstep⟩
  | some off =>
    rw [ho] at hstep
    refine .inr ⟨off, by simpa using (windowOffset_some _ _ _).1 ho, ?_⟩
    by_cases hc : accessSize a ≠ 4 ∨ off.val % 4 ≠ 0
    · simp only [hc, if_true] at hstep; exact .inl ⟨hc, hstep⟩
    · simp only [hc, if_false] at hstep; exact .inr ⟨by omega, by omega, hstep⟩

/-- The inversion of `step`: a step that answers t is one of the cases. -/
theorem step_cases {s t : State} (h : step s = .next t) : StepCase s t := by
  cases hi : s.inbox with
  | nil => exact .engine [] (.inr ⟨hi, rfl⟩) (by rw [step_nil s hi] at h; simpa using h.symm)
  | cons e later =>
    cases e with
    | engineTurn =>
      exact .engine later (.inl hi) (by rw [step_cons s _ _ hi, runEvent] at h; simpa using h.symm)
    | reset => exact .reset later hi (by rw [step_cons s _ _ hi, runEvent] at h; simpa using h.symm)
    | access a =>
      rcases step_of_access s a later hi with ⟨-, hr⟩ | ⟨off, ha, ⟨-, hf⟩ | ⟨hs, ho, -⟩⟩
      · rw [hr] at h; cases h
      · rw [hf] at h; cases h
      · cases a with
        | read addr size =>
          obtain rfl : size = 4 := hs
          obtain rfl : addr = shaBase s + off.val := ha
          exact .read later off ho hi (by rw [step_read s later off ho hi] at h; simpa using h.symm)
        | write addr size v =>
          obtain rfl : size = 4 := hs
          obtain rfl : addr = shaBase s + off.val := ha
          by_cases h0 : off.val = 0
          · rw [h0, Nat.add_zero] at hi
            rw [step_ctrl s later v hi, executeCommand] at h
            cases hd : decode (BitVec.ofNat 32 v) with
            | ok i => rw [hd] at h; exact .command later v i hi hd h
            | error e => rw [hd] at h; exact .illegal later v e hi hd (by simpa using h.symm)
          · rw [step_write s later off v ho hi] at h
            by_cases h8 : off.val = 8
            · rw [(regAt_data off).2 (by omega)] at h
              rw [h8] at hi
              exact .data later v hi (by simpa [regWrite] using h.symm)
            · rw [regWrite_other _ _ _ (fun hc => by have := (regAt_ctrl off).1 hc; omega)
                (fun hc => by have := (regAt_data off).1 hc; omega)] at h
              exact .ignored later off v ho h0 h8 hi (by simpa using h.symm)

/-- The command a write to CTRL issues is the next command. -/
theorem nextCommand_ctrl (s : State) (later : List Event) (v : Nat) (h : s.inbox = .access (.write (shaBase s) 4 v) :: later) :
    nextCommand s = (decode (BitVec.ofNat 32 v)).toOption := by
  simp [nextCommand, h]

theorem nextCommand_eq_some {s : State} {i : Instr} (h : nextCommand s = some i) :
    ∃ (later : List Event) (v : Nat), s.inbox = .access (.write (shaBase s) 4 v) :: later ∧
      decode (BitVec.ofNat 32 v) = .ok i := by
  unfold nextCommand at h
  split at h
  · rename_i addr v later hi
    split at h
    · subst addr
      refine ⟨later, v, hi, ?_⟩
      cases hd : decode (BitVec.ofNat 32 v) with
      | ok j => rw [hd] at h; cases h; rfl
      | error e => rw [hd] at h; cases h
    · cases h
  · cases h

/-- When the next event is the command i, the step is exec of i. -/
theorem step_nextCommand {s : State} {i : Instr} (h : nextCommand s = some i) :
    ∃ later, step s = exec i { s with inbox := later, answer := .ok } := by
  obtain ⟨later, v, hi, hd⟩ := nextCommand_eq_some h
  exact ⟨later, by rw [step_ctrl s later v hi, executeCommand, hd]⟩

/-! ### The end of a session (44_commands.md R249) -/

theorem nextIsReset_iff (s : State) : nextIsReset s = true ↔ ∃ later, s.inbox = .reset :: later := by
  cases h : s.inbox <;> simp [nextIsReset, h]

theorem step_reset {s t : State} (h : step s = .next t) (hr : nextIsReset s = true) : t.phase = .idle := by
  obtain ⟨later, hi⟩ := (nextIsReset_iff s).1 hr
  rw [step_cons s _ later hi, runEvent] at h
  cases h; rfl

/-- R242, R284: what an INIT leaves PHASE at: OPEN, or ERROR while BUSY = 1. -/
theorem step_init {s t : State} (h : step s = .next t) (hc : nextCommand s = some .init) :
    t.phase = if s.busy then .error else .opened := by
  obtain ⟨later, hs⟩ := step_nextCommand hc
  rw [hs, exec_init] at h
  rcases execInit_cases { s with inbox := later, answer := .ok } with ⟨hb, hp, he⟩ | ⟨hb, -, he⟩ | ⟨hb, he⟩ <;>
    rw [he] at h <;> cases h
  · rw [if_pos hb]; exact hp
  · rw [if_pos hb]; rfl
  · rw [if_neg (by simpa using hb)]; rfl

/-- R169: PHASE becomes IDLE by a reset only. -/
theorem step_to_idle {s t : State} (h : step s = .next t) (hs : s.phase ≠ .idle) (ht : t.phase = .idle) :
    nextIsReset s = true := by
  cases step_cases h with
  | engine l hi he =>
    subst he; exfalso
    rcases engineStep_cases (awaiting l s) with ⟨-, he⟩ | ⟨_, -, he⟩ | ⟨-, -, he⟩ <;> rw [he] at ht
    · exact hs ht
    · exact hs ht
    · rw [feedForwardStep] at ht
      rcases afterBlock_cases { awaiting l s with hash := feedForward (awaiting l s).hash (awaiting l s).work } with
        ⟨-, -, ha⟩ | ⟨-, -, ha⟩ | ⟨-, ha⟩ <;> rw [ha] at ht
      · exact hs ht
      · cases ht
      · exact hs ht
  | reset l hi he => exact (nextIsReset_iff s).2 ⟨l, hi⟩
  | read l off ho hi he => subst he; exact absurd ht hs
  | command l v i hi hd he =>
    exfalso
    cases exec_cases he with
    | same h1 => subst h1; exact hs ht
    | raise c h1 => subst h1; cases ht
    | init h1 h2 h3 => subst h3; cases ht
    | absorb n h1 h2 h3 h4 => subst h4; rw [(absorbBytes_frame _ _).2.2.1] at ht; exact hs ht
    | final h1 h2 h3 h4 => subst h4; cases ht
  | illegal l v e hi hd he =>
    subst he; exfalso
    unfold executeIllegal at ht
    split at ht
    · exact hs ht
    · cases ht
  | data l v hi he => subst he; exact absurd ht hs
  | ignored l off v _ _ _ hi he => subst he; exact absurd ht hs

/-- An interruption ends the session in IDLE or in the next session's OPEN. -/
theorem step_interrupted {s t : State} (h : step s = .next t) (hi : interruptedNext s = true) :
    t.phase = .idle ∨ t.phase = .opened := by
  simp only [interruptedNext, Bool.and_eq_true, Bool.or_eq_true, decide_eq_true_eq, Bool.not_eq_true'] at hi
  rcases hi.2 with hr | ⟨hc, hb⟩
  · exact .inl (step_reset h hr)
  · exact .inr (by rw [step_init h hc, hb]; rfl)

/-- R249: a step of a session goes on with it, ends it well, or ends it badly, and only one of these. -/
theorem session_step_cases {s t : State} (h : step s = .next t) (hs : inSession s = true) :
    (inSession t = true ∧ endedWell s t = false ∧ endedBadly s t = false) ∨
    (endedWell s t = true ∧ endedBadly s t = false) ∨ (endedWell s t = false ∧ endedBadly s t = true) := by
  have hidle : t.phase = .idle → interruptedNext s = true := fun ht => by
    have : s.phase ≠ .idle := fun hc => by simp [inSession, hc] at hs
    simp [interruptedNext, hs, step_to_idle h this ht]
  have hint := step_interrupted h
  unfold endedWell endedBadly
  rw [hs]
  cases hb : interruptedNext s <;> cases hp : t.phase <;> simp_all [inSession]

/-- R168, R249: a step that does not end a session badly goes on with it, or leaves it DONE: `SessionRun` follows it. -/
theorem SessionRun.goes_on {m : List Byte} {s t : State} (hr : SessionRun m s) (h : step s = .next t) (hs : inSession s = true)
    (hb : endedBadly s t = false) : SessionRun (m ++ absorbedNext s) t := by
  simp only [endedBadly, interruptedNext, hs, Bool.true_and, Bool.or_eq_false_iff, decide_eq_false_iff_not] at hb
  refine .more hr hb.2.1 (fun hc => ?_) h hb.1
  cases hbusy : s.busy with
  | true => exact hb.1 (by rw [step_init h hc, hbusy]; rfl)
  | false => simp [hc, hbusy] at hb

/-- R249, R52: the result is H. -/
theorem sessionResult_eq (s : State) : sessionResult s = s.hash := by
  ext j hj
  simp [sessionResult, regRead]

end Sys2Proof.Machine
end

