-- ==== Sys2Proof/Tests/Slice0.lean ====
section
/-! SUPPORT. The package's own tests, their expected values from spec/95_test_vectors.md and spec/30_encoding.md, and for every statement
with hypotheses a witness that they can be met together. -/

namespace Sys2Proof.Tests

open Sys2Proof.Machine

/-! ### Well-formedness: an ill-formed term for each check (30_encoding.md R101, R104) -/

theorem test_reserved_bits_refused :
    ({ rsvd := 1, nbm1 := 0, opc := 1 } : CmdFields).reservedZero = false ∧
    ({ rsvd := 1, nbm1 := 0, opc := 1 } : CmdFields).wellFormed = false := by decide

theorem test_reserved_opcode_refused :
    ({ rsvd := 0, nbm1 := 0, opc := 4 } : CmdFields).opcodeDefined = false ∧
    ({ rsvd := 0, nbm1 := 0, opc := 4 } : CmdFields).wellFormed = false := by decide

theorem test_byte_count_refused :
    ({ rsvd := 0, nbm1 := 1, opc := 1 } : CmdFields).byteCountAllowed = false ∧
    ({ rsvd := 0, nbm1 := 1, opc := 1 } : CmdFields).wellFormed = false := by decide

/-! ### Decoding: words written out bit by bit from R100 and R106, {RSVD, NBM1, OPC} -/

theorem test_decode_nop : decode 0b00000000000000000000000000_00_0000#32 = .ok .nop := by decide
theorem test_decode_init : decode 0b00000000000000000000000000_00_0001#32 = .ok .init := by decide
theorem test_decode_absorb1 : decode 0b00000000000000000000000000_00_0010#32 = .ok (.absorb 0) := by decide
theorem test_decode_absorb2 : decode 0b00000000000000000000000000_01_0010#32 = .ok (.absorb 1) := by decide
theorem test_decode_absorb3 : decode 0b00000000000000000000000000_10_0010#32 = .ok (.absorb 2) := by decide
theorem test_decode_absorb4 : decode 0b00000000000000000000000000_11_0010#32 = .ok (.absorb 3) := by decide
theorem test_decode_final : decode 0b00000000000000000000000000_00_0011#32 = .ok .final := by decide

/-- 2.9: the Illegal words, each with the check of R105 that refuses it. -/
theorem test_decode_illegal :
    decode 0x00000004 = .error .reservedOpcode ∧ decode 0x0000000F = .error .reservedOpcode ∧
    decode 0x00000010 = .error .byteCountNotAllowed ∧ decode 0x00000011 = .error .byteCountNotAllowed ∧
    decode 0x00000013 = .error .byteCountNotAllowed ∧ decode 0x00000040 = .error .reservedBits ∧
    decode 0x00000042 = .error .reservedBits ∧ decode 0x80000001 = .error .reservedBits ∧
    decode 0xFFFFFFFF = .error .reservedBits := by decide

theorem test_decodeTableWord :
    decodeTableWord 32 0x0 = some .nop ∧ decodeTableWord 32 0x1 = some .init ∧ decodeTableWord 32 0x22 = some (.absorb 2) ∧
    decodeTableWord 32 0x3 = some .final ∧ decodeTableWord 32 0x40 = none := by decide

/-! ### States the tests and witnesses start from -/

/-- The state after INIT (2.6-2), with FILL, DATA and BITLEN as given. -/
def opened (fill : Fin 64) (data : Word) : State :=
  { openSession State.reset with fill := fill, data := data, bitlen := BitVec.ofNat 64 (8 * fill.val) }

/-- A state in the given phase with a block in flight at round t. -/
def inFlight (ph : Phase) (pad : Bool) (t : Fin 65) : State :=
  { openSession State.reset with
    phase := ph, busy := true, padpend := pad, t := t, errcode := if ph = .error then 2 else 0 }

/-- ERROR, quiet, with code 2 (as 2.6-17). -/
def failed : State := { State.reset with phase := .error, errcode := 2 }

/-- DONE, quiet. -/
def finished : State := { State.reset with phase := .done, hash := ivRom }

/-- The state with one access pending. -/
def pending (a : Access) (s : State) : State := { s with inbox := [.access a] }

/-- The fault an outcome stops with. -/
def faultOf : Host.Outcome State Fault Refusal → Option Fault
  | .next _ => none
  | .fault f => some f
  | .refused _ => none

/-- What a test reads of an outcome's next state. -/
def seen {α : Type} (f : State → α) (o : Host.Outcome State Fault Refusal) : Option α := (nextState o).map f

/-! ### Commands, one step each (2.3, 2.6) -/

/-- 2.6-1 and 2.6-21: NOP from reset, and while BUSY = 1. -/
theorem test_nop : seen statusWord (step (State.reset.withFetchWord 32 0)) = some 0x00000000 ∧
    seen statusWord (step ((inFlight .opened false 0).withFetchWord 32 0)) = some 0x00000011 := by decide +kernel

/-- 2.6-2: INIT after reset. -/
theorem test_init :
    seen (fun s => (statusWord s, s.hash[0], s.hash[7], s.bitlen)) (step (State.reset.withFetchWord 32 1)) =
      some (0x00000010, 0x6A09E667, 0x5BE0CD19, 0) := by decide +kernel

/-- 2.6-22: INIT while BUSY = 1; 2.6-20: INIT from ERROR. -/
theorem test_init_errors :
    seen statusWord (step ((inFlight .opened false 0).withFetchWord 32 1)) = some 0x00000245 ∧
    seen statusWord (step (failed.withFetchWord 32 1)) = some 0x00000010 := by decide +kernel

/-- 2.6-3 and 2.6-5: ABSORB 1 and ABSORB 3 of A1B2C3D4. -/
theorem test_absorb :
    seen (fun s => (statusWord s, s.buf[0], s.buf[1], s.bitlen)) (step ((opened 0 0xA1B2C3D4).withFetchWord 32 0x02)) =
      some (0x00001010, 0xA1, 0x00, 8) ∧
    seen (fun s => (statusWord s, s.buf[0], s.buf[1], s.buf[2], s.bitlen)) (step ((opened 0 0xA1B2C3D4).withFetchWord 32 0x22)) =
      some (0x00003010, 0xA1, 0xB2, 0xC3, 0x18) := by decide +kernel

/-- 2.3-6: ABSORB 4 across a block: FILL = 62 before. -/
theorem test_absorb_crosses :
    seen (fun s => (statusWord s, s.buf[62], s.buf[63], s.buf[0], s.buf[1], s.bitlen, s.sched[15]))
      (step ((opened 62 0x11223344).withFetchWord 32 0x32)) =
      some (0x00002011, 0x11, 0x22, 0x33, 0x44, 0x210, 0x00001122) := by decide +kernel

/-- 2.3-3 and 2.3-4: FINAL with 55 and with 56 bytes held. -/
theorem test_final :
    seen (fun s => (statusWord s, s.buf[55], s.buf[62], s.buf[63])) (step ((opened 55 0).withFetchWord 32 3)) =
      some (0x00000021, 0x80, 0x01, 0xB8) ∧
    seen (fun s => (statusWord s, s.buf[56], s.buf[62], s.buf[63])) (step ((opened 56 0).withFetchWord 32 3)) =
      some (0x00000029, 0x80, 0x00, 0x00) := by decide +kernel

/-- 2.6-8, 2.6-9: ABSORB 1 and FINAL in IDLE; 2.6-16, 2.6-27: while BUSY = 1; 2.6-18: FINAL in ERROR. -/
theorem test_sequence_errors :
    seen statusWord (step (State.reset.withFetchWord 32 2)) = some 0x00000344 ∧
    seen statusWord (step (State.reset.withFetchWord 32 3)) = some 0x00000344 ∧
    seen statusWord (step ({ inFlight .opened false 0 with fill := 2 }.withFetchWord 32 2)) = some 0x00002245 ∧
    seen statusWord (step ((inFlight .finishing true 0).withFetchWord 32 3)) = some 0x00000245 ∧
    seen statusWord (step (failed.withFetchWord 32 3)) = some 0x00000244 := by decide +kernel

/-- 2.6-10, 2.6-23, 2.6-19: Illegal words after reset, while FINISHING, and in ERROR. -/
theorem test_illegal :
    seen statusWord (step (withCommand State.reset 0x00000004)) = some 0x00000144 ∧
    seen statusWord (step (withCommand (inFlight .finishing false 0) 0xFFFFFFFF)) = some 0x00000145 ∧
    seen statusWord (step (withCommand failed 0x00000004)) = some 0x00000244 := by decide +kernel

/-! ### The engine -/

/-- The 'abc' block, 2.2-10. -/
def abcBlock : Block := finalBlock #v[0x61, 0x62, 0x63, 0, 0, 0, 0, 0, 0, 0, 0, 0, 0, 0, 0, 0, 0, 0, 0, 0, 0, 0, 0, 0, 0, 0, 0, 0, 0, 0, 0, 0,
  0, 0, 0, 0, 0, 0, 0, 0, 0, 0, 0, 0, 0, 0, 0, 0, 0, 0, 0, 0, 0, 0, 0, 0, 0, 0, 0, 0, 0, 0, 0, 0] 3 0x18

/-- 2.5-9 rows 62 and 63. -/
def row62 : Work :=
  { a := 0xD39A2165, b := 0x04D24D6C, c := 0xB85E2CE9, d := 0xB6AE8FFF, e := 0xFB121210, f := 0x948D25B6, g := 0x961F4894, h := 0xB21BAD3D }
def row63 : Work :=
  { a := 0x506E3058, b := 0xD39A2165, c := 0x04D24D6C, d := 0xB85E2CE9, e := 0x5EF50F24, f := 0xFB121210, g := 0x948D25B6, h := 0x961F4894 }

/-- 2.4-7: words 0, 15, 16, 17 and 63 of the schedule of the 'abc' block. -/
theorem test_schedule :
    (schedule abcBlock)[0] = 0x61626380 ∧ (schedule abcBlock)[15] = 0x00000018 ∧ (schedule abcBlock)[16] = 0x61626380 ∧
    (schedule abcBlock)[17] = 0x000F0000 ∧ (schedule abcBlock)[63] = 0x12B1EDEB := by decide +kernel

/-- 2.4-5, 2.4-6: σ0 and σ1. -/
theorem test_small_sigmas :
    smallSigma0 0x12345678 = 0xE7FCE6EE ∧ smallSigma1 0x12345678 = 0xA1F78649 ∧
    smallSigma0 0x61626380 = 0x940E90EF ∧ smallSigma1 0x61626380 = 0x7DA86405 := by decide

/-- 2.5-1, 2.5-2: Σ0 and Σ1. -/
theorem test_big_sigmas :
    bigSigma0 0x12345678 = 0x66146474 ∧ bigSigma1 0x12345678 = 0x3561ABDA ∧
    bigSigma0 0x61626380 = 0x8DD59276 ∧ bigSigma1 0x61626380 = 0xC0B865F2 := by decide

/-- 2.5-3, 2.5-4: Ch and Maj. -/
theorem test_ch_maj :
    ch 0xF0F0F0F0 0xAAAAAAAA 0x55555555 = 0xA5A5A5A5 ∧ maj 0xF0F0F0F0 0xCCCCCCCC 0xAAAAAAAA = 0xE8E8E8E8 := by decide

/-- 2.5-6: the last round step of the 'abc' block. -/
theorem test_round_step :
    seen (fun s => (s.work, s.t)) (step { inFlight .finishing false 63 with sched := schedule abcBlock, work := row62 }) =
      some (row63, 64) := by decide +kernel

/-- 2.5-7, 2.3-2: the feed-forward step of the 'abc' block. -/
theorem test_feed_forward_step :
    seen (fun s => (statusWord s, s.hash)) (step { inFlight .finishing false 64 with work := row63 }) =
      some (0x00000032, #v[0xBA7816BF, 0x8F01CFEA, 0x414140DE, 0x5DAE2223, 0xB00361A3, 0x96177A9C, 0xB410FF61, 0xF20015AD]) := by
  decide +kernel

/-- 2.3-4: after the first of two padding blocks the second is launched. 2.6-28: in ERROR nothing is launched. -/
theorem test_after_block :
    seen (fun s => (statusWord s, s.buf[0], s.sched[15]))
      (step { inFlight .finishing true 64 with bitlen := 0x1C0 }) = some (0x00000021, 0x00, 0x000001C0) ∧
    seen statusWord (step (inFlight .error false 64)) = some 0x00000244 := by decide +kernel

/-! ### The end of a session (R249) -/

/-- In OPEN: NOP goes on; ABSORB while BUSY = 1, an INIT and a reset end the session badly. The last feed-forward ends it well. In DONE there is no session to
interrupt. -/
theorem test_session_ends :
    [withCommand (opened 3 0) 0, withCommand (inFlight .opened false 0) 2, withCommand (opened 3 0) 1, { opened 3 0 with inbox := [.reset] },
      inFlight .finishing false 64, withCommand finished 1].map
      (fun s => seen (fun t => (endedWell s t, endedBadly s t)) (step s)) =
      [some (false, false), some (false, true), some (false, true), some (false, true), some (true, false),
        some (false, false)] := by decide +kernel

/-! ### Constants and reference functions -/

/-- 2.1-2, 2.1-4, 2.1-5. -/
theorem test_roots :
    icbrt (2 * 2 ^ 96) = 0x1428A2F98 ∧ icbrt (311 * 2 ^ 96) = 0x6C67178F2 ∧ isqrt (2 * 2 ^ 64) = 0x16A09E667 := by decide +kernel

/-- 2.2-1, 2.2-4, 2.2-5, 2.2-6, 2.2-8, 2.2-9: z(L) and nb(L). -/
theorem test_padding_counts :
    [0, 55, 56, 63, 119, 120].map zeroCount = [55, 0, 63, 56, 0, 63] ∧
    [0, 55, 56, 63, 119, 120].map blockCount = [1, 1, 2, 2, 2, 3] := by decide

/-- 2.2-10: the one chunk of pad('abc'). -/
theorem test_chunks_abc : chunks (pad [0x61, 0x62, 0x63]) = .ok [abcBlock] := by decide +kernel

/-- 2.10: the digest of the empty message. -/
theorem test_digest_empty :
    digest [] = .ok #v[0xE3B0C442, 0x98FC1C14, 0x9AFBF4C8, 0x996FB924, 0x27AE41E4, 0x649B934C, 0xA495991B, 0x7852B855] := by
  decide +kernel

/-! ### Register access and reset (2.7, 2.8) -/

/-- 2.7-1 to 2.7-5 and 2.7-10. -/
theorem test_bus_errors :
    [.read 0x04 1, .read 0x06 4, .read 0x08 2, .read 0x02 4, .read 0x00 8, .write 0x00 1 1].map
      (fun a => faultOf (step (pending a State.reset))) = List.replicate 6 (some .busError) := by decide +kernel

/-- 2.7-6: DATA is stored and reads back. -/
theorem test_data_register :
    seen (·.data) (step (pending (.write 0x08 4 0xDEADBEEF) State.reset)) = some 0xDEADBEEF ∧
    seen (·.answer) (step (pending (.read 0x08 4) (opened 0 0xDEADBEEF))) = some (.data 0xDEADBEEF) := by decide +kernel

/-- 2.7-7, 2.7-8: CTRL and the reserved offsets read 0, in a state where every other register does not. -/
theorem test_zero_reads :
    [0x00, 0x0C, 0x18, 0x1C].map (fun off => seen (·.answer) (step (pending (.read off 4) (opened 5 0xDEADBEEF)))) =
      List.replicate 4 (some (.data 0)) := by decide +kernel

/-- 2.7-9: writes to STATUS, DIGEST0, BITLEN_LO and 0x0C have no effect. -/
theorem test_ignored_writes :
    [(0x04, 0xFFFFFFFF), (0x20, 5), (0x10, 7), (0x0C, 9)].map (fun w =>
      seen (fun s => { s with answer := .nothing }) (step (pending (.write w.1 4 w.2) State.reset))) =
      List.replicate 4 (some State.reset) := by decide +kernel

/-- 2.8-2: reset while FINISHING with BUSY = 1. -/
theorem test_reset_event :
    seen (fun s => (statusWord s, s.hash[0], s.busy)) (step { inFlight .finishing false 7 with inbox := [.reset] }) =
      some (0, 0, false) := by decide +kernel

/-! ### The host's programs (P1, P2) -/

/-- P2: `FEED 3, 'abc'` is WAIT; WR DATA, 'abc'; ABSORB 3, on the bus 0x61626300 to B + 0x08 and 0x22 to B + 0x00. -/
theorem test_feed :
    (expandLine 0 (.feed 2 (.chars ['a', 'b', 'c']))).map (transaction 0x40) =
      [none, some (.read 0x44 4), none, some (.write 0x48 4 0x61626300), some (.write 0x40 4 0x22)] := by decide +kernel

/-- P1: the first turn of the host writes INIT. -/
theorem test_host_turn :
    ((hostTurn { host := startHost [.stmt (.command .init), .finish], engine := State.reset }).toOption.map
      fun y => (y.host.pc, statusWord y.engine)) = some (1, 0x00000010) := by decide +kernel

/-! ### Witnesses: encoding and decoding -/

/-- ReservedBitsAreIllegal: each of its two cases. -/
theorem witness_reservedBits :
    (0x40#32).extractLsb' 6 26 ≠ 0 ∧ (0x11#32).extractLsb' 4 2 ≠ 0 ∧ (0x11#32).extractLsb' 0 4 ≠ 2 := by decide

/-- StepRunsDecodedCommand. -/
theorem witness_stepRunsDecodedCommand :
    (withCommand (opened 0 0) 0x32).inbox = .access (.write (shaBase (withCommand (opened 0 0) 0x32)) 4 0x32) :: [] ∧
      decode (BitVec.ofNat 32 0x32) = .ok (.absorb 3) ∧ (Instr.absorb 3).wellFormed = true := by decide +kernel

/-- IllegalWordRecorded. -/
theorem witness_illegalWord :
    (withCommand (opened 0 0) 4).inbox = .access (.write (shaBase (withCommand (opened 0 0) 4)) 4 4) :: [] ∧
      decode (BitVec.ofNat 32 4) = .error .reservedOpcode ∧ (withCommand (opened 0 0) 4).phase ≠ .error := by decide +kernel

/-- ErrorPhaseIgnoresCommands: a command, an INIT while BUSY = 1, a write to DATA and a read of the last register. -/
theorem witness_errorPhase :
    (failed.phase = .error ∧ ¬ (decode (BitVec.ofNat 32 3) = .ok .init ∧ failed.busy = false)) ∧
    ((inFlight .error false 3).phase = .error ∧
      ¬ (decode (BitVec.ofNat 32 1) = .ok .init ∧ (inFlight .error false 3).busy = false)) ∧
    (withCommand failed 3).inbox = .access (.write (shaBase (withCommand failed 3)) 4 3) :: [] ∧
    (pending (.write 8 4 5) failed).inbox = .access (.write (shaBase failed + 0x08) 4 5) :: [] ∧
    ((60 : Fin 64).val % 4 = 0 ∧
      (pending (.read 60 4) failed).inbox = .access (.read (shaBase failed + (60 : Fin 64).val) 4) :: []) := by decide +kernel

/-! ### Witnesses: commands -/

/-- InitOpensSession, and both cases of InitWhileBusy. -/
theorem witness_init :
    State.reset.busy = false ∧ ((inFlight .error false 0).busy = true ∧ (inFlight .error false 0).phase = .error) ∧
      ((inFlight .finishing true 0).busy = true ∧ (inFlight .finishing true 0).phase ≠ .error) := by decide

/-- AbsorbAppendsBytes at its boundary: FILL = 59 with ABSORB 4, FILL = 62 with ABSORB 1. -/
theorem witness_absorbAppends :
    ((opened 59 0).phase = .opened ∧ (opened 59 0).busy = false ∧ (opened 59 0).fill.val + ((3 : BitVec 2).toNat + 1) < 64) ∧
    (opened 62 0).fill.val + ((0 : BitVec 2).toNat + 1) < 64 := by decide

/-- AbsorbLaunchesFullBlock at its boundary: FILL = 60 with ABSORB 4, FILL = 63 with ABSORB 1 and ABSORB 4. -/
theorem witness_absorbLaunches :
    ((opened 60 0).phase = .opened ∧ (opened 60 0).busy = false ∧ 64 ≤ (opened 60 0).fill.val + ((3 : BitVec 2).toNat + 1)) ∧
    64 ≤ (opened 63 0).fill.val + ((0 : BitVec 2).toNat + 1) ∧ 64 ≤ (opened 63 0).fill.val + ((3 : BitVec 2).toNat + 1) := by decide

/-- WhichCommandsLeaveBusy and FinalPadsAndLaunches, on both sides of FILL = 56. -/
theorem witness_final :
    ((opened 55 0).phase = .opened ∧ (opened 55 0).busy = false ∧ (opened 55 0).fill.val ≤ 55) ∧
    ((opened 56 0).phase = .opened ∧ (opened 56 0).busy = false ∧ 56 ≤ (opened 56 0).fill.val) := by decide

/-- AbsorbAndFinalChecks: its three cases. -/
theorem witness_checks :
    failed.phase = .error ∧ ((inFlight .opened false 0).phase ≠ .error ∧ (inFlight .opened false 0).busy = true) ∧
      (finished.phase ≠ .error ∧ finished.phase ≠ .opened ∧ finished.busy = false) := by decide

/-- CommandFrame: a next state, for each command; an accepted one, a failed check, and an ignored one. -/
theorem witness_commandFrame :
    (∃ t, exec .nop (opened 0 0) = .next t) ∧ (∃ t, exec .init (opened 0 0) = .next t) ∧
      (∃ t, exec (.absorb 3) (opened 0 0) = .next t ∧ (opened 0 0).phase = .opened ∧ (opened 0 0).busy = false) ∧
      (∃ t, exec .final finished = .next t ∧ finished.phase ≠ .opened) ∧
      (∃ t, exec .init (inFlight .error false 0) = .next t ∧ (inFlight .error false 0).busy = true) :=
  ⟨exec_answers_next _ _, exec_answers_next _ _, ⟨_, rfl, rfl, rfl⟩, ⟨_, rfl, by decide⟩, ⟨_, rfl, rfl⟩⟩

/-! ### Witnesses: errors and the engine -/

/-- OnlyInitOrResetLeavesError: INIT, a reset, and a step that leaves ERROR. -/
theorem witness_leavesError :
    ((withCommand failed 1).phase = .error ∧ nextCommand (withCommand failed 1) = some .init ∧
      (withCommand failed 1).busy = false) ∧
    (({ failed with inbox := [.reset] } : State).phase = .error ∧ nextIsReset { failed with inbox := [.reset] } = true) ∧
    seen (fun t => decide (t.phase ≠ .error)) (step (withCommand failed 1)) = some true := by decide +kernel

/-- BlockInFlightCompletesInError, RoundStepComputesRound, RoundStepIsInvisible at the last round, and the feed-forward. -/
theorem witness_inFlight :
    ((inFlight .error false 63).phase = .error ∧ (inFlight .error false 63).busy = true ∧ (inFlight .error false 63).t.val < 64) ∧
    ((inFlight .error false 64).phase = .error ∧ (inFlight .error false 64).busy = true ∧
      ¬ (inFlight .error false 64).t.val < 64) := by decide

/-- ErrorsArePrecise. -/
theorem witness_errorsArePrecise : (withCommand State.reset 3).phase ≠ .error ∧
    seen (fun t => decide (t.phase = .error)) (step (withCommand State.reset 3)) = some true := by decide +kernel

/-- FeedForwardStepOutcome: its three cases. -/
theorem witness_feedForward :
    ((inFlight .finishing true 64).busy = true ∧ (inFlight .finishing true 64).t.val = 64 ∧
      (inFlight .finishing true 64).phase = .finishing ∧ (inFlight .finishing true 64).padpend = true) ∧
    ((inFlight .finishing false 64).t.val = 64 ∧ (inFlight .finishing false 64).phase = .finishing ∧
      (inFlight .finishing false 64).padpend = false) ∧
    ((inFlight .opened false 64).t.val = 64 ∧ (inFlight .opened false 64).phase ≠ .finishing) := by decide

/-- QuietEngineHasNoStep. -/
theorem witness_quiet : (opened 3 0).busy = false := by decide

theorem coherent_finishing (t : Fin 65) : Coherent (inFlight .finishing true t) := by
  constructor <;> simp [inFlight, openSession]

/-- BusyEngineComesToRest: FINISHING with two blocks, and a block of an OPEN session. -/
theorem witness_busyEngine :
    (Coherent (inFlight .finishing true 0) ∧ (inFlight .finishing true 0).busy = true ∧ (inFlight .finishing true 0).inbox = [] ∧
      (inFlight .finishing true 0).phase = .finishing) ∧
    (Coherent (inFlight .opened false 0) ∧ (inFlight .opened false 0).busy = true ∧ (inFlight .opened false 0).inbox = [] ∧
      (inFlight .opened false 0).phase ≠ .finishing) :=
  ⟨⟨coherent_finishing 0, rfl, rfl, rfl⟩, by constructor <;> simp [inFlight, openSession], rfl, rfl, by decide⟩

/-- ScheduleRecurrence at both ends; ChooseSelectsBitwise and MajorityBitwise at bit 31; RotateRightBitwise at n = 31. -/
theorem witness_ranges : ((16 ≤ 16 ∧ 16 < 64) ∧ (16 ≤ 63 ∧ 63 < 64)) ∧ 31 < 32 ∧ (1 ≤ 31 ∧ 31 ≤ 31) := by decide

/-! ### Witnesses: the window and reset -/

/-- AlignedReadAnswersRegister and AlignedWriteEffect: every word slot of the window, and a window that does not begin at 0. -/
theorem witness_alignedAccess :
    (∀ k : Fin 16, 4 * k.val < 64 ∧ 4 * k.val % 4 = 0 ∧
      (pending (.read (4 * k.val) 4) finished).inbox = .access (.read (shaBase finished + 4 * k.val) 4) :: [] ∧
      (pending (.write (4 * k.val) 4 1) finished).inbox = .access (.write (shaBase finished + 4 * k.val) 4 1) :: []) ∧
    (pending (.read 0x7C 4) { State.reset with basePage := 1 }).inbox =
      .access (.read (shaBase { State.reset with basePage := 1 } + 0x3C) 4) :: [] := by decide +kernel

/-- MisshapenAccessIsBusError: a wrong size, and a misaligned access at the last byte. -/
theorem witness_misshapen :
    (shaBase finished ≤ accessAddr (.read 0x3C 8) ∧ accessAddr (.read 0x3C 8) < shaBase finished + 64 ∧
      accessSize (.read 0x3C 8) ≠ 4) ∧
    (accessAddr (.write 0x3F 4 0) < shaBase finished + 64 ∧ (accessAddr (.write 0x3F 4 0) - shaBase finished) % 4 ≠ 0) := by decide

/-- OutsideAccessIsRefused: just below and just above the window. -/
theorem witness_outside :
    accessAddr (.read 0x3F 4) < shaBase { State.reset with basePage := 1 } ∧
    shaBase { State.reset with basePage := 1 } + 64 ≤ accessAddr (.read 0x80 4) := by decide

/-- DataByteLanes: all four bytes. -/
theorem witness_byteLanes : 4 ≤ 4 ∧ 3 < 4 := by decide

/-- ResetEventClears. -/
theorem witness_reset : ({ finished with inbox := [.reset] } : State).inbox = .reset :: [] := rfl

/-! ### Witnesses: the whole machine -/

/-- EveryStepKeepsCoherence and NoStepMovesTheWindow. -/
theorem witness_coherentStep : ∃ t, Coherent (inFlight .finishing true 64) ∧ step (inFlight .finishing true 64) = .next t :=
  ⟨_, coherent_finishing 64, step_nil _ rfl⟩

/-- PhaseTransitions: a reset, INIT, FINAL, the last feed-forward, an error. -/
theorem witness_phaseTransitions :
    [{ finished with inbox := [.reset] }, withCommand State.reset 1, withCommand (opened 0 0) 3, inFlight .finishing false 64,
      withCommand (opened 0 0) 4].map (fun s => seen (fun t => (s.phase, t.phase)) (step s)) =
      [some (.done, .idle), some (.idle, .opened), some (.opened, .finishing), some (.finishing, .done),
        some (.opened, .error)] := by decide +kernel

/-- OnlyThreeThingsWriteHash: each of the three. -/
theorem witness_hashWrites :
    [{ finished with inbox := [.reset] }, withCommand State.reset 1, { inFlight .opened false 64 with work := row63 }].map
      (fun s => seen (fun t => decide (t.hash ≠ s.hash)) (step s)) = [some true, some true, some true] := by decide +kernel

/-- OnlyHostWriteOrResetChangesData: each of the two. -/
theorem witness_dataWrites :
    [{ opened 0 7 with inbox := [.reset] }, pending (.write 8 4 5) State.reset].map
      (fun s => seen (fun t => decide (t.data ≠ s.data)) (step s)) = [some true, some true] := by decide +kernel

/-- LengthFrozenAfterFinal: a reset and an INIT in DONE and in ERROR, and a reset in FINISHING, with a nonzero length. -/
theorem witness_lengthFrozen :
    [{ finished with bitlen := 8, inbox := [.reset] }, withCommand { finished with bitlen := 8 } 1,
      { failed with bitlen := 8, inbox := [.reset] }, withCommand { failed with bitlen := 8 } 1,
      { inFlight .finishing false 7 with bitlen := 8, inbox := [.reset] }].map
      (fun s => seen (fun t => (s.phase, decide (t.bitlen ≠ s.bitlen))) (step s)) =
      [some (.done, true), some (.done, true), some (.error, true), some (.error, true), some (.finishing, true)] := by
  decide +kernel

/-- UnwrittenStorageNeverMatters: two states that differ in BUF past FILL, W, a and t, with a step, a fault and a refusal to come. -/
theorem witness_indistinguishable (e : List Event) :
    ∃ s₁ s₂ : State, s₁ ≠ s₂ ∧ s₁.inbox = e ∧ Indistinguishable s₁ s₂ := by
  refine ⟨{ opened 3 0 with inbox := e },
    { opened 3 0 with inbox := e, buf := (opened 3 0).buf.set 3 1, sched := Vector.replicate 64 5, t := 9 }, ?_, rfl, ?_⟩
  · intro h
    have h9 : (0 : Fin 65) = 9 := congrArg State.t h
    exact absurd h9 (by decide)
  · refine ⟨rfl, rfl, rfl, rfl, rfl, rfl, rfl, rfl, rfl, rfl, rfl, fun i hi => ?_,
      fun h => Bool.noConfusion h, fun h => Bool.noConfusion h, fun h => Bool.noConfusion h⟩
    have : i.val < 3 := hi
    simp only [Fin.getElem_fin, Vector.getElem_set]
    rw [if_neg (by omega)]

/-! ### Witnesses: padding and sessions -/

/-- PaddingProperties and ChunksReconstructSequence: lengths for each clause. -/
theorem witness_lengths :
    ([] : List Byte).length < 2 ^ 61 ∧ (zeros 55).length = 55 ∧ (zeros 56).length = 56 ∧ (zeros 128).length % 64 = 0 ∧
      (zeros 63).length % 64 ≠ 0 := by decide +kernel

/-- INIT, ABSORB 1 of the byte 0x00, FINAL: one command a step, from reset. -/
def script : State :=
  { State.reset with inbox := [ctrlWrite State.reset 1, ctrlWrite State.reset 2, ctrlWrite State.reset 3] }

/-- The state a step leaves, where it has a next state. -/
def after (s : State) : State := (nextState (step s)).getD s

theorem step_after (s : State) (h : (nextState (step s)).isSome = true) : step s = .next (after s) := by
  unfold after
  cases hs : step s <;> simp_all [nextState]

theorem session_init : SessionRun [] (after script) :=
  .start (by decide +kernel) (by decide +kernel) (step_after _ (by decide +kernel))

theorem session_absorb : SessionRun [0x00] (after (after script)) := by
  have h : [] ++ absorbedNext (after script) = [0x00] := by decide +kernel
  exact h ▸ .more session_init (by decide +kernel) (by decide +kernel) (step_after _ (by decide +kernel)) (by decide +kernel)

theorem session_final : SessionRun [0x00] (after (after (after script))) := by
  have h : [0x00] ++ absorbedNext (after (after script)) = [0x00] := by decide +kernel
  have := SessionRun.more session_absorb (by decide +kernel) (by decide +kernel) (step_after _ (by decide +kernel)) (by decide +kernel)
  rwa [h] at this

/-- SessionHoldsMessageTail and OpenSessionHoldsChainingValue: a session that has absorbed a byte. -/
theorem witness_openSession :
    SessionRun [0x00] (after (after script)) ∧ (after (after script)).phase = .opened ∧ (after (after script)).busy = false :=
  ⟨session_absorb, by decide +kernel, by decide +kernel⟩

/-- A session whose last padding block is in flight comes to DONE. -/
theorem session_reaches_done {m : List Byte} (n : Nat) (s : State) (hn : 64 - s.t.val = n) (h : SessionRun m s)
    (hp : s.phase = .finishing) (hb : s.busy = true) (hd : s.padpend = false) (hi : s.inbox = []) :
    ∃ s', SessionRun m s' ∧ s'.phase = .done := by
  have hm : m ++ absorbedNext s = m := by simp [absorbedNext, nextCommand, hi]
  have hnext : ∀ s', step s = .next s' → s'.phase ≠ .error → SessionRun m s' := fun s' hs he => by
    have := SessionRun.more h (by simp [nextIsReset, hi]) (by simp [nextCommand, hi]) hs he
    rwa [hm] at this
  have hstep := step_nil s hi
  induction n generalizing s with
  | zero =>
    rw [engineStep_feedForward _ (by simpa using hb) (by simp; omega), feedForwardStep] at hstep
    refine ⟨_, hnext _ hstep ?_, ?_⟩ <;> simp [afterBlock, awaiting, hp, hd]
  | succ n ih =>
    rw [engineStep_round _ (by simpa using hb) (by simp; omega)] at hstep
    have hs' := hnext _ hstep (by simp [roundStep, awaiting, hp])
    refine ih _ (by simp [roundStep, awaiting]; omega) hs' hp hb hd rfl (by simp [absorbedNext, nextCommand, roundStep, awaiting]) ?_ (step_nil _ rfl)
    intro s'' h1 h2
    have := SessionRun.more hs' (by simp [nextIsReset, roundStep, awaiting]) (by simp [nextCommand, roundStep, awaiting]) h1 h2
    simpa [absorbedNext, nextCommand, roundStep, awaiting] using this

/-- SessionComputesDigest and SessionsAreIsolated: a session that is DONE. -/
theorem witness_doneSession : ∃ s, SessionRun [0x00] s ∧ s.phase = .done :=
  session_reaches_done 64 _ (by decide +kernel) session_final (by decide +kernel) (by decide +kernel) (by decide +kernel) (by decide +kernel)

/-- SessionComputesDigest, second part: a step in DONE, and in ERROR after it, that is no INIT and no reset. -/
theorem witness_quietSteps :
    [withCommand finished 2, pending (.write 0x08 4 1) failed].map (fun s => decide (nextIsReset s = false ∧
      nextCommand s ≠ some .init ∧ s.busy = false ∧ (s.phase = .done ∨ s.phase = .error) ∧ (nextState (step s)).isSome)) =
      [true, true] := by decide +kernel

/-- HostCommandStatementRunsCommand. -/
theorem witness_hostCommand : (startHost [.finish]).code[3]? = some (.command .final) := by decide

end Sys2Proof.Tests
end

section
/-! Proofs of the scope's word operations (00_scope.md R9): what each bit of a rotated word is. -/

namespace Sys2Proof.Proofs.Scope
open Sys2Proof Sys2Proof.Machine

/-- Bit `i` of `rotr x n` comes from the right shift, whose bits above `31 − n` are zero, or from the left shift, whose
bits below `32 − n` are zero. -/
theorem getLsbD_rotr (x : Word) (n i : Nat) :
    (rotr x n).getLsbD i =
      (x.getLsbD (n + i) || (decide (i < 32) && !decide (i < 32 - n) && x.getLsbD (i - (32 - n)))) := by
  simp only [rotr, BitVec.getLsbD_or, BitVec.getLsbD_ushiftRight, BitVec.getLsbD_shiftLeft]

/-- Below the wrap-around the bit is the right shift's. -/
theorem getLsbD_rotr_of_lt (x : Word) {n i : Nat} (h : i + n < 32) : (rotr x n).getLsbD i = x.getLsbD (i + n) := by
  have hleft : i < 32 - n := by omega
  rw [getLsbD_rotr, Nat.add_comm n i]
  simp [hleft]

/-- From the wrap-around on the bit is the left shift's. -/
theorem getLsbD_rotr_of_ge (x : Word) {n i : Nat} (hn : n ≤ 32) (hi : i < 32) (h : 32 ≤ i + n) :
    (rotr x n).getLsbD i = x.getLsbD (i + n - 32) := by
  have hright : x.getLsbD (n + i) = false := BitVec.getLsbD_of_ge x _ (by omega)
  have hleft : ¬ i < 32 - n := by omega
  have hindex : i - (32 - n) = i + n - 32 := by omega
  rw [getLsbD_rotr, hright, hindex]
  simp [hleft, hi]

/-- Settles O32: `(i + n) mod 32` is `i + n` below the wrap-around and `i + n − 32` from it on. -/
theorem rotateRightBitwise : Obligations.RotateRightBitwise := by
  intro x n i _ hn hi
  by_cases h : i + n < 32
  · rw [getLsbD_rotr_of_lt x h, Nat.mod_eq_of_lt h]
  · have hmod : (i + n) % 32 = i + n - 32 := by omega
    rw [getLsbD_rotr_of_ge x (by omega) hi (by omega), hmod]

end Sys2Proof.Proofs.Scope
end

section
/-! What a step does to the engine: the inversion of `step` (Laws/Step.lean) said by effect on the engine, so that a claim about the
engine's elements has one case for each way in which they change. -/

namespace Sys2Proof.Proofs.Effects
open Sys2Proof Sys2Proof.Machine

/-- R284 steps 1 and 2 for an Illegal word: its two outcomes. -/
theorem executeIllegal_cases (s : State) :
    (s.phase = .error ∧ executeIllegal s = s) ∨
    (s.phase ≠ .error ∧ executeIllegal s = raiseError .illegalCmd s) := by
  unfold executeIllegal
  split
  · exact .inl ⟨‹_›, rfl⟩
  · exact .inr ⟨‹_›, rfl⟩

/-! ### The bytes the next step absorbs -/

theorem absorbedNext_of_not_absorb {s : State} (h : ∀ n, nextCommand s ≠ some (.absorb n)) : absorbedNext s = [] := by
  unfold absorbedNext
  split
  · exact absurd ‹_› (h _)
  · rfl

theorem absorbedNext_of_not_open {s : State} (h : s.phase ≠ .opened) : absorbedNext s = [] := by
  unfold absorbedNext
  split
  · exact if_neg fun hc => h hc.1
  · rfl

theorem absorbedNext_of_absorb {s : State} {n : BitVec 2} (hc : nextCommand s = some (.absorb n)) (hp : s.phase = .opened)
    (hb : s.busy = false) : absorbedNext s = messageBytes (byteCount n) s.data := by
  simp [absorbedNext, hc, hp, hb]

theorem nextCommand_of_no_access {s : State} (h : ∀ a later, s.inbox ≠ .access a :: later) : nextCommand s = none := by
  cases hc : nextCommand s with
  | none => rfl
  | some i =>
    obtain ⟨later, v, hi, -⟩ := nextCommand_eq_some hc
    exact absurd hi (h _ _)

/-- A write to another register than CTRL is no command. -/
theorem nextCommand_of_write_elsewhere {s : State} {off v : Nat} {later : List Event} (hoff : off ≠ 0)
    (hi : s.inbox = .access (.write (shaBase s + off) 4 v) :: later) : nextCommand s = none := by
  simp [nextCommand, hi, hoff]

/-! ### The effects -/

/-- What a step from s to t does to the engine. -/
inductive Effect (s t : State) : Prop where
  /-- Nothing: an accepted access that has no effect, a NOP, or a command ignored in ERROR. -/
  | port (later : List Event) (ans : Answer) :
      t = { s with inbox := later, answer := ans } → absorbedNext s = [] → Effect s t
  /-- DATA is stored (R37). -/
  | data (later : List Event) (v : Nat) : s.inbox = .access (.write (shaBase s + 8) 4 v) :: later →
      t = { s with inbox := later, answer := .ok, data := BitVec.ofNat 32 v } → Effect s t
  /-- An error is recorded (60_exceptions.md R283). -/
  | raise (later : List Event) (c : Cause) : s.phase ≠ .error →
      t = raiseError c { s with inbox := later, answer := .ok } → Effect s t
  /-- INIT with BUSY = 0 (44_commands.md R242). -/
  | init (later : List Event) : nextCommand s = some .init → s.busy = false →
      t = openSession { s with inbox := later, answer := .ok } → Effect s t
  /-- An accepted ABSORB (R243). -/
  | absorb (later : List Event) (n : BitVec 2) : nextCommand s = some (.absorb n) → s.phase = .opened → s.busy = false →
      t = absorbBytes { s with inbox := later, answer := .ok } (messageBytes (byteCount n) s.data) → Effect s t
  /-- An accepted FINAL (R244). -/
  | final (later : List Event) : nextCommand s = some .final → s.phase = .opened → s.busy = false →
      t = finalPad { s with inbox := later, answer := .ok } → Effect s t
  /-- The engine agent's turn. -/
  | engine (later : List Event) : (∀ a later, s.inbox ≠ .access a :: later) → t = engineStep (awaiting later s) → Effect s t
  /-- A reset. -/
  | reset (later : List Event) : nextIsReset s = true → t = resetEngine (awaiting later s) → Effect s t

theorem effect_of_command {s t : State} {i : Instr} (later : List Event) (hc : nextCommand s = some i)
    (h : exec i { s with inbox := later, answer := .ok } = .next t) : Effect s t := by
  cases exec_cases h with
  | same ht hi =>
    refine .port later .ok ht ?_
    rcases hi with rfl | hp
    · exact absorbedNext_of_not_absorb (by simp [hc])
    · replace hp : s.phase = .error := hp
      exact absorbedNext_of_not_open (by simp [hp])
  | raise c ht hp => exact .raise later c hp ht
  | init hi hb ht => exact .init later (hi ▸ hc) hb ht
  | absorb n hi hp hb ht => exact .absorb later n (hi ▸ hc) hp hb ht
  | final hi hp hb ht => exact .final later (hi ▸ hc) hp hb ht

/-- The inversion of `step` by effect. -/
theorem step_effect {s t : State} (h : step s = .next t) : Effect s t := by
  cases step_cases h with
  | engine later hi ht => exact .engine later (by rcases hi with hi | ⟨hi, -⟩ <;> simp [hi]) ht
  | reset later hi ht => exact .reset later ((nextIsReset_iff s).2 ⟨later, hi⟩) ht
  | read later off _ hi ht => exact .port later _ ht (absorbedNext_of_not_absorb (by simp [nextCommand, hi]))
  | command later v i hi hd he => exact effect_of_command later (by rw [nextCommand_ctrl s later v hi, hd]; rfl) he
  | illegal later v e hi hd ht =>
    rcases executeIllegal_cases { s with inbox := later, answer := .ok } with ⟨-, he⟩ | ⟨hp, he⟩
    · exact .port later .ok (ht.trans he) (absorbedNext_of_not_absorb (by simp [nextCommand_ctrl s later v hi, hd, Except.toOption]))
    · exact .raise later _ hp (ht.trans he)
  | data later v hi ht => exact .data later v hi ht
  | ignored later off v _ h0 _ hi ht =>
    exact .port later .ok ht (absorbedNext_of_not_absorb (by simp [nextCommand_of_write_elsewhere h0 hi]))

end Sys2Proof.Proofs.Effects
end

section
/-! What every effect of a step keeps, the control state's invariants (10_state.md R46, 60_exceptions.md R281), and which effects reach DATA (R37)
and H (R31). -/

namespace Sys2Proof.Proofs.Control
open Sys2Proof Sys2Proof.Machine Sys2Proof.Proofs.Effects

/-- Coherence is about PHASE, BUSY, PADPEND, ERRCODE and FILL alone. -/
theorem coherent_of_same_control {s t : State} (hs : Coherent s) (hphase : t.phase = s.phase) (hbusy : t.busy = s.busy)
    (hpad : t.padpend = s.padpend) (hcode : t.errcode = s.errcode) (hfill : t.fill = s.fill) : Coherent t := by
  cases hs
  constructor <;> simpa only [hphase, hbusy, hpad, hcode, hfill]

/-- Outside FINISHING nothing pends, so BUSY may take either value in OPEN. -/
theorem coherent_of_open {t : State} (hphase : t.phase = .opened) (hpad : t.padpend = false) (hcode : t.errcode = 0) :
    Coherent t := by
  constructor <;> simp [hphase, hpad, hcode]

theorem coherent_raiseError (c : Cause) (s : State) : Coherent (raiseError c s) := by
  constructor <;> cases c <;> simp [causeCode]

theorem coherent_openSession (s : State) : Coherent (openSession s) := coherent_of_open rfl rfl rfl

theorem coherent_reset : Coherent State.reset := by
  constructor <;> simp [State.reset]

/-- Outside ERROR no code is recorded. -/
theorem errcode_eq_zero {s : State} (hs : Coherent s) (hp : s.phase ≠ .error) : s.errcode = 0 :=
  not_not.1 fun hc => hp (hs.error_coded.2 hc)

/-- Outside FINISHING no second padding block pends. -/
theorem padpend_eq_false {s : State} (hs : Coherent s) (hp : s.phase ≠ .finishing) : s.padpend = false :=
  Bool.eq_false_iff.2 fun hc => hp (hs.padpend_finishing hc)

theorem coherent_absorbBytes {s : State} (hs : Coherent s) (hp : s.phase = .opened) (bs : List Byte) :
    Coherent (absorbBytes s bs) := by
  obtain ⟨-, -, hphase, hpad, hcode, -, -, -⟩ := absorbBytes_frame bs s
  exact coherent_of_open (hphase.trans hp) (hpad.trans (padpend_eq_false hs (by simp [hp])))
    (hcode.trans (errcode_eq_zero hs (by simp [hp])))

theorem coherent_finalPad {s : State} (hs : Coherent s) (hp : s.phase = .opened) : Coherent (finalPad s) := by
  have hcode : s.errcode = 0 := errcode_eq_zero hs (by simp [hp])
  constructor <;> simp [hcode]

theorem coherent_afterBlock {s : State} (hs : Coherent s) : Coherent (afterBlock s) := by
  rcases afterBlock_cases s with ⟨hp, -, h⟩ | ⟨hp, hd, h⟩ | ⟨hp, h⟩ <;> rw [h]
  · have hcode := errcode_eq_zero hs (by simp [hp])
    have hfill := hs.finishing_empty hp
    constructor <;> simp [hp, hcode, hfill]
  · have hcode := errcode_eq_zero hs (by simp [hp])
    have hfill := hs.finishing_empty hp
    constructor <;> simp [hd, hcode, hfill]
  · exact ⟨fun hc => absurd hc hp, fun _ => rfl, fun _ => rfl, hs.padpend_finishing, hs.error_coded, hs.finishing_empty,
      hs.done_empty, hs.code_produced⟩

theorem coherent_engineStep {s : State} (hs : Coherent s) : Coherent (engineStep s) := by
  rcases engineStep_cases s with ⟨-, h⟩ | ⟨_, -, h⟩ | ⟨-, -, h⟩ <;> rw [h]
  · exact hs
  · exact coherent_of_same_control hs rfl rfl rfl rfl rfl
  · exact coherent_afterBlock (coherent_of_same_control hs rfl rfl rfl rfl rfl)

/-- Settles O45: each effect of a step keeps the invariants. -/
theorem everyStepKeepsCoherence : Obligations.EveryStepKeepsCoherence := by
  intro s t hs h
  have served (later : List Event) (ans : Answer) : Coherent { s with inbox := later, answer := ans } :=
    coherent_of_same_control hs rfl rfl rfl rfl rfl
  cases step_effect h with
  | port later ans ht _ => exact ht ▸ served later ans
  | data later v _ ht => exact ht ▸ coherent_of_same_control hs rfl rfl rfl rfl rfl
  | raise later c _ ht => exact ht ▸ coherent_raiseError c _
  | init later _ _ ht => exact ht ▸ coherent_openSession _
  | absorb later n _ hp _ ht => exact ht ▸ coherent_absorbBytes (served later .ok) hp _
  | final later _ hp _ ht => exact ht ▸ coherent_finalPad (served later .ok) hp
  | engine later _ ht => exact ht ▸ coherent_engineStep (served later .nothing)
  | reset later _ ht => exact ht ▸ coherent_of_same_control coherent_reset rfl rfl rfl rfl rfl

/-- Settles O44: register by register; of the digest registers all eight words are 0. -/
theorem resetStateIsQuietAndCoherent : Obligations.ResetStateIsQuietAndCoherent := by
  refine ⟨fun r => ?_, rfl, rfl, coherent_reset⟩
  cases r with
  | digest j => simp [regRead, State.reset]
  | _ => rfl

/-- Settles O25: with BUSY = 0 the engine's turn takes its last branch. -/
theorem quietEngineHasNoStep : Obligations.QuietEngineHasNoStep := by
  intro s hb
  simp [engineStep, hb]

/-- Settles O48: of the effects of a step only a write to DATA and a reset reach DATA. -/
theorem onlyHostWriteOrResetChangesData : Obligations.OnlyHostWriteOrResetChangesData := by
  intro s t h hd
  cases step_effect h with
  | port later ans ht _ => subst ht; exact absurd rfl hd
  | data later v hi ht => subst ht; exact .inr ⟨v, later, hi, rfl⟩
  | raise later c _ ht => subst ht; exact absurd rfl hd
  | init later _ _ ht => subst ht; exact absurd rfl hd
  | absorb later n _ _ _ ht => subst ht; exact absurd (absorbBytes_frame _ _).2.1 hd
  | final later _ _ _ ht => subst ht; exact absurd rfl hd
  | engine later _ ht => subst ht; exact absurd (engineStep_frame _).1 hd
  | reset later hr _ => exact .inl hr

/-- H changes at the engine's turn only by the feed-forward (R31, R221). -/
theorem engineStep_hash (s : State) (h : (engineStep s).hash ≠ s.hash) :
    s.busy = true ∧ s.t.val = 64 ∧ (engineStep s).hash = feedForward s.hash s.work := by
  rcases engineStep_cases s with ⟨-, he⟩ | ⟨_, -, he⟩ | ⟨hb, ht, he⟩ <;> rw [he] at h ⊢
  · exact absurd rfl h
  · exact absurd rfl h
  · exact ⟨hb, ht, feedForwardStep_hash s⟩

/-- Settles O47: of the effects of a step only INIT, the engine's turn and a reset reach H. -/
theorem onlyThreeThingsWriteHash : Obligations.OnlyThreeThingsWriteHash := by
  intro s t h hh
  cases step_effect h with
  | port later ans ht _ => subst ht; exact absurd rfl hh
  | data later v _ ht => subst ht; exact absurd rfl hh
  | raise later c _ ht => subst ht; exact absurd rfl hh
  | init later hc hb ht => subst ht; exact .inr (.inl ⟨hc, hb, rfl⟩)
  | absorb later n _ _ _ ht => subst ht; exact absurd (absorbBytes_frame _ _).1 hh
  | final later _ _ _ ht => subst ht; exact absurd rfl hh
  | engine later hi ht => subst ht; exact .inr (.inr ⟨hi, engineStep_hash (awaiting later s) hh⟩)
  | reset later hr _ => exact .inl hr

end Sys2Proof.Proofs.Control
end

section
/-! The STATUS word (10_state.md R49): what each of its bits is, and from that what each of its fields is. -/

namespace Sys2Proof.Proofs.Status
open Sys2Proof Sys2Proof.Machine

/-- The layout of STATUS (R49), bit by bit. -/
theorem getLsbD_statusLayout (fill : BitVec 6) (code : BitVec 4) (phase : BitVec 3) (pad err done busy : Bool) (i : Nat) :
    ((0 : BitVec 14) ++ fill ++ code ++ (0 : BitVec 1) ++ phase ++ BitVec.ofBool pad ++ BitVec.ofBool err ++
      BitVec.ofBool done ++ BitVec.ofBool busy).getLsbD i =
    if i = 0 then busy
    else if i = 1 then done
    else if i = 2 then err
    else if i = 3 then pad
    else if i < 7 then phase.getLsbD (i - 4)
    else if i < 8 then false
    else if i < 12 then code.getLsbD (i - 8)
    else fill.getLsbD (i - 12) := by
  iterate 8 rw [BitVec.getLsbD_append]
  simp only [BitVec.getLsbD_ofBool, BitVec.ofNat_eq_ofNat, BitVec.getLsbD_zero, Nat.sub_sub]
  grind (splits := 20)

theorem getLsbD_statusWord (s : State) (i : Nat) : (statusWord s).getLsbD i =
    if i = 0 then s.busy
    else if i = 1 then doneBit s
    else if i = 2 then errBit s
    else if i = 3 then s.padpend
    else if i < 7 then (phaseCode s.phase).getLsbD (i - 4)
    else if i < 8 then false
    else if i < 12 then s.errcode.getLsbD (i - 8)
    else (BitVec.ofNat 6 s.fill.val).getLsbD (i - 12) :=
  getLsbD_statusLayout ..

/-- The bits of STATUS from `start` on, `len` of them, are the field `f` when they are so one by one. -/
theorem statusField_eq {s : State} {start len : Nat} {f : BitVec len}
    (h : ∀ i < len, (statusWord s).getLsbD (start + i) = f.getLsbD i) : (statusWord s).extractLsb' start len = f := by
  ext i hi
  rw [BitVec.getElem_extractLsb', h i hi, BitVec.getLsbD_eq_getElem]

/-- R49: STATUS[6:4]. -/
theorem status_phase (s : State) : (statusWord s).extractLsb' 4 3 = phaseCode s.phase :=
  statusField_eq fun i hi => by grind [getLsbD_statusWord]

/-- R49: STATUS[11:8]. -/
theorem status_errcode (s : State) : (statusWord s).extractLsb' 8 4 = s.errcode :=
  statusField_eq fun i hi => by grind [getLsbD_statusWord]

/-- R49: STATUS[17:12]. -/
theorem status_fill (s : State) : (statusWord s).extractLsb' 12 6 = BitVec.ofNat 6 s.fill.val :=
  statusField_eq fun i hi => by grind [getLsbD_statusWord]

/-- R49: STATUS[31:18], above the six bits of FILL. -/
theorem status_reserved (s : State) : (statusWord s).extractLsb' 18 14 = 0 :=
  statusField_eq fun i hi => by
    have : (BitVec.ofNat 6 s.fill.val).getLsbD (18 + i - 12) = false := BitVec.getLsbD_of_ge _ _ (by omega)
    grind [getLsbD_statusWord]

/-- Settles O41: each field is read off the layout of the word. -/
theorem statusFieldsAtTheirBits : Obligations.StatusFieldsAtTheirBits := by
  intro s
  refine ⟨?_, ?_, ?_, ?_, ?_, ?_, status_errcode s, ?_, status_reserved s, fun v => rfl⟩
  · exact getLsbD_statusWord s 0
  · rw [getLsbD_statusWord]; exact decide_eq_true_iff
  · rw [getLsbD_statusWord]; exact decide_eq_true_iff
  · exact getLsbD_statusWord s 3
  · rw [status_phase]; cases s.phase <;> rfl
  · exact getLsbD_statusWord s 7
  · simp [status_fill]

end Sys2Proof.Proofs.Status
end

section
/-! Noninterference (10_state.md R46, R54): every operation of a step takes two states that agree but for unwritten storage to two such states, so
the storage a rule may not read before writing reaches nothing. -/

namespace Sys2Proof.Proofs.Unwritten
open Sys2Proof Sys2Proof.Machine

/-- Two outcomes that are alike: states that agree so, or the same stop. -/
inductive Alike : Host.Outcome State Fault Refusal → Host.Outcome State Fault Refusal → Prop where
  | next {t₁ t₂ : State} : Indistinguishable t₁ t₂ → Alike (.next t₁) (.next t₂)
  | fault (f : Fault) : Alike (.fault f) (.fault f)
  | refused (r : Refusal) : Alike (.refused r) (.refused r)

theorem alike_next {t : State} {o : Host.Outcome State Fault Refusal} (h : Alike (.next t) o) :
    ∃ t', o = .next t' ∧ Indistinguishable t t' := by
  cases h with
  | next ht => exact ⟨_, rfl, ht⟩

theorem alike_fault {f : Fault} {o : Host.Outcome State Fault Refusal} (h : Alike (.fault f) o) : o = .fault f := by
  cases h; rfl

theorem alike_refused {r : Refusal} {o : Host.Outcome State Fault Refusal} (h : Alike (.refused r) o) : o = .refused r := by
  cases h; rfl

section
variable {s₁ s₂ : State}

/-! ### Reads -/

theorem regRead_alike (h : Indistinguishable s₁ s₂) (r : Reg) : regRead s₂ r = regRead s₁ r := by
  cases r with
  | ctrl => rfl
  | status => simp only [regRead, statusWord, doneBit, errBit, h.fill, h.errcode, h.phase, h.padpend, h.busy]
  | data => exact h.data
  | bitlenLo => simp only [regRead, h.bitlen]
  | bitlenHi => simp only [regRead, h.bitlen]
  | digest j => simp only [regRead, h.hash]
  | reserved => rfl

theorem windowOffset_alike (h : Indistinguishable s₁ s₂) (addr : Nat) : windowOffset s₂ addr = windowOffset s₁ addr := by
  have hbase : shaBase s₂ = shaBase s₁ := by simp only [shaBase, h.basePage]
  simp only [windowOffset, hbase]

/-! ### Updates that touch no byte of BUF -/

theorem served_alike (h : Indistinguishable s₁ s₂) (later : List Event) (ans : Answer) :
    Indistinguishable { s₁ with inbox := later, answer := ans } { s₂ with inbox := later, answer := ans } :=
  { h with inbox := rfl, answer := rfl }

theorem raiseError_alike (h : Indistinguishable s₁ s₂) (c : Cause) : Indistinguishable (raiseError c s₁) (raiseError c s₂) :=
  { h with errcode := rfl, phase := rfl, padpend := rfl }

/-- INIT sets FILL to 0, so no byte of BUF is held. -/
theorem openSession_alike (h : Indistinguishable s₁ s₂) : Indistinguishable (openSession s₁) (openSession s₂) :=
  { h with
    hash := rfl, bitlen := rfl, fill := rfl, padpend := rfl, errcode := rfl, phase := rfl
    held := fun i hi => absurd hi (Fin.not_lt_zero i) }

theorem resetEngine_alike (h : Indistinguishable s₁ s₂) : Indistinguishable (resetEngine s₁) (resetEngine s₂) where
  hash := rfl
  fill := rfl
  bitlen := rfl
  data := rfl
  phase := rfl
  busy := rfl
  padpend := rfl
  errcode := rfl
  basePage := h.basePage
  inbox := h.inbox
  answer := rfl
  held _ _ := rfl
  sched _ := rfl
  work _ := rfl
  t _ := rfl

/-! ### Launch, and the three rules that lead to it -/

/-- Launch (R219) writes W, the working registers and t from H and the whole of BUF. -/
theorem launch_alike (h : Indistinguishable s₁ s₂) (hbuf : s₂.buf = s₁.buf) : Indistinguishable (launch s₁) (launch s₂) :=
  { h with
    busy := rfl
    sched := fun _ => congrArg schedule hbuf
    work := fun _ => congrArg workOf h.hash
    t := fun _ => rfl }

/-- Writing BUF[FILL] in both keeps the bytes up to and including it in agreement. -/
theorem buf_set_alike (h : Indistinguishable s₁ s₂) (b : Byte) (i : Nat) (hi : i < 64) (hf : i ≤ s₁.fill.val) :
    (s₂.buf.set s₂.fill.val b)[i] = (s₁.buf.set s₁.fill.val b)[i] := by
  simp only [Vector.getElem_set, h.fill]
  split
  · rfl
  · exact h.held ⟨i, hi⟩ (Fin.lt_def.2 (by simp only; omega))

theorem absorbByte_alike (h : Indistinguishable s₁ s₂) (b : Byte) : Indistinguishable (absorbByte s₁ b) (absorbByte s₂ b) := by
  have hbuf := buf_set_alike h b
  by_cases hf : s₁.fill.val = 63
  · rw [absorbByte_full s₁ b hf, absorbByte_full s₂ b (h.fill ▸ hf)]
    have hset : Indistinguishable { s₁ with buf := s₁.buf.set s₁.fill.val b, bitlen := s₁.bitlen + 8 }
        { s₂ with buf := s₂.buf.set s₂.fill.val b, bitlen := s₂.bitlen + 8 } :=
      { h with bitlen := by simp only [h.bitlen], held := fun i hi => hbuf i i.isLt (Nat.le_of_lt hi) }
    exact { launch_alike hset (Vector.ext fun i hi => hbuf i hi (by omega)) with
      fill := rfl, held := fun i hi => absurd hi (Fin.not_lt_zero i) }
  · have hroom : s₁.fill.val < 63 := by omega
    rw [absorbByte_room s₁ b hroom, absorbByte_room s₂ b (h.fill ▸ hroom)]
    exact { h with
      bitlen := by simp only [h.bitlen]
      fill := by simp only [h.fill]
      held := fun i hi => hbuf i i.isLt (Nat.le_of_lt_succ hi) }

theorem absorbBytes_alike (h : Indistinguishable s₁ s₂) (bs : List Byte) :
    Indistinguishable (absorbBytes s₁ bs) (absorbBytes s₂ bs) := by
  induction bs generalizing s₁ s₂ with
  | nil => exact h
  | cons b bs ih => exact ih (absorbByte_alike h b)

/-- FinalPad (R166) overwrites every byte of BUF from FILL on. -/
theorem finalBlock_alike (h : Indistinguishable s₁ s₂) :
    finalBlock s₂.buf s₂.fill s₂.bitlen = finalBlock s₁.buf s₁.fill s₁.bitlen := by
  rw [h.fill, h.bitlen]
  ext i hi : 1
  rw [getElem_finalBlock _ _ _ i hi, getElem_finalBlock _ _ _ i hi]
  split
  · exact h.held ⟨i, hi⟩ ‹_›
  · rfl

theorem finalPad_alike (h : Indistinguishable s₁ s₂) : Indistinguishable (finalPad s₁) (finalPad s₂) :=
  { h with
    fill := rfl
    phase := rfl
    busy := rfl
    padpend := by simp only [finalPad_padpend, h.fill]
    held := fun i hi => absurd hi (Fin.not_lt_zero i)
    sched := fun _ => congrArg schedule (finalBlock_alike h)
    work := fun _ => congrArg workOf h.hash
    t := fun _ => rfl }

/-- The second padding block (R167) overwrites the whole of BUF. -/
theorem lengthBlock_alike (h : Indistinguishable s₁ s₂) : lengthBlock s₂.buf s₂.bitlen = lengthBlock s₁.buf s₁.bitlen := by
  rw [h.bitlen]
  ext i hi : 1
  rw [getElem_lengthBlock _ _ i hi, getElem_lengthBlock _ _ i hi]

/-- A buffer rewritten with the same bytes in both, whatever it held. -/
theorem rewritten_alike (h : Indistinguishable s₁ s₂) {b₁ b₂ : Block} (hb : b₂ = b₁) (pending : Bool) :
    Indistinguishable { s₁ with buf := b₁, padpend := pending } { s₂ with buf := b₂, padpend := pending } :=
  { h with padpend := rfl, held := fun i _ => by simp only [hb] }

theorem afterBlock_alike (h : Indistinguishable s₁ s₂) : Indistinguishable (afterBlock s₁) (afterBlock s₂) := by
  have hblock := lengthBlock_alike h
  rcases afterBlock_cases s₁ with ⟨hp, hd, h₁⟩ | ⟨hp, hd, h₁⟩ | ⟨hp, h₁⟩ <;> rw [h₁]
  · rw [afterBlock, if_pos ⟨h.phase.trans hp, h.padpend.trans hd⟩]
    exact launch_alike (rewritten_alike h hblock false) hblock
  · rw [afterBlock, if_neg (by simp [h.padpend, hd]), if_pos (h.phase.trans hp)]
    exact { h with phase := rfl, busy := rfl, sched := nofun, work := nofun, t := nofun }
  · have hp₂ : s₂.phase ≠ .finishing := h.phase ▸ hp
    rw [afterBlock, if_neg (fun hc => hp₂ hc.1), if_neg hp₂]
    exact { h with busy := rfl, sched := nofun, work := nofun, t := nofun }

/-! ### The agents -/

theorem engineStep_alike (h : Indistinguishable s₁ s₂) : Indistinguishable (engineStep s₁) (engineStep s₂) := by
  rcases engineStep_cases s₁ with ⟨hb, he⟩ | ⟨ht, hb, he⟩ | ⟨hb, ht, he⟩ <;> rw [he]
  · rw [engineStep, if_neg (by simp [h.busy, hb])]
    exact h
  · have ht₂ : s₂.t.val < 64 := h.t hb ▸ ht
    rw [engineStep_round s₂ (h.busy.trans hb) ht₂]
    exact { h with
      work := fun _ => by simp only [roundStep_work, h.t hb, h.sched hb, h.work hb]
      t := fun _ => by simp only [roundStep_t, h.t hb] }
  · rw [engineStep_feedForward s₂ (h.busy.trans hb) (h.t hb ▸ ht)]
    exact afterBlock_alike { h with hash := by simp only [h.hash, h.work hb] }

theorem inOpenSession_alike {body : State → State} (h : Indistinguishable s₁ s₂)
    (hbody : Indistinguishable (body s₁) (body s₂)) :
    Indistinguishable (inOpenSession body s₁) (inOpenSession body s₂) := by
  unfold inOpenSession
  rw [h.phase, h.busy]
  split
  · exact h
  · split
    · exact raiseError_alike h _
    · split
      · exact raiseError_alike h _
      · exact hbody

theorem execInit_alike (h : Indistinguishable s₁ s₂) : Alike (execInit s₁) (execInit s₂) := by
  unfold execInit
  rw [h.phase, h.busy]
  split
  · split
    · exact .next h
    · exact .next (raiseError_alike h _)
  · exact .next (openSession_alike h)

theorem exec_alike (i : Instr) (h : Indistinguishable s₁ s₂) : Alike (exec i s₁) (exec i s₂) := by
  cases i with
  | nop => exact .next h
  | init => exact execInit_alike h
  | absorb n => exact .next (inOpenSession_alike h (h.data ▸ absorbBytes_alike h _))
  | final => exact .next (inOpenSession_alike h (finalPad_alike h))

theorem executeIllegal_alike (h : Indistinguishable s₁ s₂) : Indistinguishable (executeIllegal s₁) (executeIllegal s₂) := by
  unfold executeIllegal
  rw [h.phase]
  split
  · exact h
  · exact raiseError_alike h _

theorem executeCommand_alike (v : Word) (h : Indistinguishable s₁ s₂) : Alike (executeCommand v s₁) (executeCommand v s₂) := by
  unfold executeCommand
  cases decode v with
  | ok i => exact exec_alike i h
  | error e => exact .next (executeIllegal_alike h)

theorem regWrite_alike (r : Reg) (v : Word) (h : Indistinguishable s₁ s₂) : Alike (regWrite r v s₁) (regWrite r v s₂) := by
  cases r with
  | ctrl => exact executeCommand_alike v h
  | data => exact .next { h with data := rfl }
  | status | bitlenLo | bitlenHi | digest | reserved => exact .next h

theorem accessReg_alike (a : Access) (r : Reg) (h : Indistinguishable s₁ s₂) : Alike (accessReg a r s₁) (accessReg a r s₂) := by
  cases a with
  | read addr size => exact .next { h with answer := congrArg Answer.data (regRead_alike h r) }
  | write addr size v => exact regWrite_alike r _ { h with answer := rfl }

theorem portAccess_alike (a : Access) (h : Indistinguishable s₁ s₂) : Alike (portAccess a s₁) (portAccess a s₂) := by
  unfold portAccess
  rw [windowOffset_alike h]
  cases windowOffset s₁ (accessAddr a) with
  | none => exact .refused _
  | some off =>
    by_cases hshape : accessSize a ≠ 4 ∨ off.val % 4 ≠ 0
    · simpa only [if_pos hshape] using Alike.fault _
    · simpa only [if_neg hshape] using accessReg_alike a _ h

theorem runEvent_alike (e : Event) (h : Indistinguishable s₁ s₂) : Alike (runEvent e s₁) (runEvent e s₂) := by
  cases e with
  | access a => exact portAccess_alike a h
  | engineTurn => exact .next (engineStep_alike h)
  | reset => exact .next (resetEngine_alike h)

theorem step_alike (h : Indistinguishable s₁ s₂) : Alike (step s₁) (step s₂) := by
  cases hi : s₁.inbox with
  | nil =>
    rw [step_nil s₁ hi, step_nil s₂ (h.inbox.trans hi)]
    exact .next (engineStep_alike (served_alike h [] .nothing))
  | cons e later =>
    rw [step_cons s₁ e later hi, step_cons s₂ e later (h.inbox.trans hi)]
    exact runEvent_alike e (served_alike h later .nothing)

end

/-- Settles O51: the two states read alike, and their steps are alike. -/
theorem unwrittenStorageNeverMatters : Obligations.UnwrittenStorageNeverMatters := fun _ _ h =>
  ⟨regRead_alike h, fun _ h₁ => alike_next (h₁ ▸ step_alike h), fun _ h₁ => alike_fault (h₁ ▸ step_alike h),
    fun _ h₁ => alike_refused (h₁ ▸ step_alike h)⟩

end Sys2Proof.Proofs.Unwritten
end

section
/-! The block in flight (43_compressor.md R217–R221): after t rounds the working registers hold the first t rounds of Compress, so the feed-forward
leaves the compressed hash state. -/

namespace Sys2Proof.Proofs.Flight
open Sys2Proof Sys2Proof.Machine

/-- The working registers after the first n rounds of the schedule w from the hash state h. -/
def roundsDone (w : Sched) (h : HashState) (n : Nat) : Work :=
  ((List.finRange 64).take n).foldl (fun s i => oneRound i w s) (workOf h)

theorem roundsDone_succ (w : Sched) (h : HashState) (n : Nat) (hn : n < 64) :
    roundsDone w h (n + 1) = oneRound ⟨n, hn⟩ w (roundsDone w h n) := by
  have hlast : (List.finRange 64).take (n + 1) = (List.finRange 64).take n ++ [⟨n, hn⟩] := by
    rw [List.take_succ_eq_append_getElem (by simpa using hn), List.getElem_finRange]
    rfl
  rw [roundsDone, hlast, List.foldl_append]
  rfl

/-- R217: Compress is all 64 rounds and the feed-forward. -/
theorem compress_eq (h : HashState) (block : Block) :
    compress h block = feedForward h (roundsDone (schedule block) h 64) := by
  have hall : (List.finRange 64).take 64 = List.finRange 64 := List.take_of_length_le (by simp)
  rw [roundsDone, hall]
  rfl

/-- The engine is compressing the block into the hash state, its first t rounds done. -/
structure InFlight (h : HashState) (block : Block) (s : State) : Prop where
  busy  : s.busy = true
  hash  : s.hash = h
  sched : s.sched = schedule block
  work  : s.work = roundsDone (schedule block) h s.t.val

theorem inFlight_roundStep {h : HashState} {block : Block} {s : State} (hf : InFlight h block s) (ht : s.t.val < 64) :
    InFlight h block (roundStep s ht) where
  busy := hf.busy
  hash := hf.hash
  sched := hf.sched
  work := by rw [roundStep_work, hf.sched, hf.work, roundStep_t, roundsDone_succ _ _ _ ht]

/-- R221: the feed-forward leaves H at Compress of the block in flight. -/
theorem feedForward_inFlight {h : HashState} {block : Block} {s : State} (hf : InFlight h block s) (ht : s.t.val = 64) :
    feedForward s.hash s.work = compress h block := by
  rw [compress_eq, hf.hash, hf.work, ht]

end Sys2Proof.Proofs.Flight
end

section
/-! The whole blocks of a message that grows byte by byte (41_padding_sequencer.md R164, R168). -/

namespace Sys2Proof.Proofs.Blocks
open Sys2Proof Sys2Proof.Machine

/-- The whole 64-byte blocks of m, in order. -/
def wholeBlocks (m : List Byte) : List Block := (List.range (m.length / 64)).map (chunkAt m)

/-- R164: the bytes of a whole chunk. -/
theorem getElem?_eq_chunkAt (p : List Byte) (i j : Nat) (hi : 64 * i + 64 ≤ p.length) (hj : j < 64) :
    p[64 * i + j]? = some (chunkAt p i)[j] := by
  have hlen : ((p.drop (64 * i)).take 64).length = 64 := by simp; omega
  rw [chunkAt, getElem_writeBytes _ _ _ _ hj, dif_pos (by omega)]
  simp only [Nat.sub_zero, List.getElem_take, List.getElem_drop]
  exact List.getElem?_eq_getElem (by omega)

/-- A chunk that lies in front of the further bytes is not changed by them. -/
theorem chunkAt_append (m bs : List Byte) (i : Nat) (hi : 64 * i + 64 ≤ m.length) : chunkAt (m ++ bs) i = chunkAt m i := by
  rw [chunkAt, chunkAt, List.drop_append_of_le_length (by omega), List.take_append_of_le_length (by simp; omega)]

theorem map_chunkAt_append (m bs : List Byte) : (List.range (m.length / 64)).map (chunkAt (m ++ bs)) = wholeBlocks m :=
  List.map_congr_left fun i hi => chunkAt_append m bs i (by have := List.mem_range.1 hi; omega)

theorem wholeBlocks_snoc_room (m : List Byte) (b : Byte) (h : m.length % 64 ≠ 63) : wholeBlocks (m ++ [b]) = wholeBlocks m := by
  have hcount : (m ++ [b]).length / 64 = m.length / 64 := by simp; omega
  rw [wholeBlocks, hcount, map_chunkAt_append]

theorem wholeBlocks_snoc_full (m : List Byte) (b : Byte) (h : m.length % 64 = 63) :
    wholeBlocks (m ++ [b]) = wholeBlocks m ++ [chunkAt (m ++ [b]) (m.length / 64)] := by
  have hcount : (m ++ [b]).length / 64 = m.length / 64 + 1 := by simp; omega
  rw [wholeBlocks, hcount, List.range_succ, List.map_append, map_chunkAt_append]
  rfl

theorem compressAll_snoc (blocks : List Block) (b : Block) : compressAll (blocks ++ [b]) = compress (compressAll blocks) b := by
  simp [compressAll]

end Sys2Proof.Proofs.Blocks
end

section
/-! What an OPEN session holds of the message it has absorbed (10_state.md R35, R52; 41_padding_sequencer.md R168). -/

namespace Sys2Proof.Proofs.OpenSession
open Sys2Proof Sys2Proof.Machine Sys2Proof.Proofs.Effects Sys2Proof.Proofs.Flight Sys2Proof.Proofs.Blocks

/-- FILL and BUF hold the bytes of m after its whole blocks, and H is the chaining value of the whole blocks, the last of which is still in
flight while BUSY = 1. -/
structure Holds (m : List Byte) (s : State) : Prop where
  fill   : s.fill.val = m.length % 64
  tail   : ∀ (i : Nat) (hi : i < 64), i < s.fill.val → m[64 * (m.length / 64) + i]? = some s.buf[i]
  quiet  : s.busy = false → s.hash = compressAll (wholeBlocks m)
  flight : s.busy = true → ∃ blocks b, wholeBlocks m = blocks ++ [b] ∧ InFlight (compressAll blocks) b s

section
variable {m : List Byte} {s t : State}

theorem holds_of_same (h : Holds m s) (hhash : t.hash = s.hash) (hwork : t.work = s.work) (hsched : t.sched = s.sched)
    (ht : t.t = s.t) (hbuf : t.buf = s.buf) (hfill : t.fill = s.fill) (hbusy : t.busy = s.busy) : Holds m t where
  fill := by rw [hfill, h.fill]
  tail i hi := by simpa only [hfill, hbuf] using h.tail i hi
  quiet hb := by rw [hhash, h.quiet (hbusy ▸ hb)]
  flight hb := by
    obtain ⟨blocks, b, hblocks, hf⟩ := h.flight (hbusy ▸ hb)
    exact ⟨blocks, b, hblocks, hb, hhash.trans hf.hash, hsched.trans hf.sched, by rw [hwork, hf.work, ht]⟩

theorem holds_openSession (hb : s.busy = false) : Holds [] (openSession s) where
  fill := rfl
  tail i _ hi := absurd hi (Nat.not_lt_zero i)
  quiet _ := rfl
  flight hc := by simp [hb] at hc

/-! ### ABSORB -/

/-- The byte put at BUF[FILL] is the next one of the message. -/
theorem tail_set (h : Holds m s) (b : Byte) (i : Nat) (hi : i < 64) (hf : i ≤ s.fill.val) :
    (m ++ [b])[64 * (m.length / 64) + i]? = some (s.buf.set s.fill.val b)[i] := by
  have hfill := h.fill
  rw [Vector.getElem_set]
  split
  · rw [List.getElem?_append_right (by omega), show 64 * (m.length / 64) + i - m.length = 0 by omega]
    rfl
  · rw [List.getElem?_append_left (by omega)]
    exact h.tail i hi (by omega)

theorem holds_absorbByte_room (h : Holds m s) (b : Byte) (hf : s.fill.val < 63) : Holds (m ++ [b]) (absorbByte s b) := by
  have hfill := h.fill
  have hblocks := wholeBlocks_snoc_room m b (by omega)
  have hcount : (m ++ [b]).length / 64 = m.length / 64 := by simp; omega
  rw [absorbByte_room s b hf]
  exact {
    fill := by simp; omega
    tail := fun i hi hlt => by rw [hcount]; exact tail_set h b i hi (Nat.le_of_lt_succ hlt)
    quiet := fun hb => by rw [hblocks]; exact h.quiet hb
    flight := fun hb => by
      obtain ⟨blocks, last, hlast, hfl⟩ := h.flight hb
      exact ⟨blocks, last, hblocks.trans hlast, hfl.busy, hfl.hash, hfl.sched, hfl.work⟩ }

/-- R165: the 64th byte completes the last whole block, which is launched. -/
theorem holds_absorbByte_full (h : Holds m s) (b : Byte) (hf : s.fill.val = 63) (hb : s.busy = false) :
    Holds (m ++ [b]) (absorbByte s b) := by
  have hfill := h.fill
  have hblock : s.buf.set s.fill.val b = chunkAt (m ++ [b]) (m.length / 64) := by
    ext i hi : 1
    have hbyte := tail_set h b i hi (by omega)
    rw [getElem?_eq_chunkAt _ _ _ (by simp; omega) hi] at hbyte
    exact (Option.some.inj hbyte).symm
  rw [absorbByte_full s b hf]
  exact {
    fill := by simp; omega
    tail := fun i _ hlt => absurd hlt (Nat.not_lt_zero i)
    quiet := nofun
    flight := fun _ => by
      refine ⟨wholeBlocks m, _, wholeBlocks_snoc_full m b (by omega), ?_⟩
      rw [← hblock, ← h.quiet hb]
      exact ⟨rfl, rfl, rfl, rfl⟩ }

/-- R243: at most one block fills, and only while the engine is quiet. -/
theorem holds_absorbBytes (bs : List Byte) (h : Holds m s) (hroom : s.busy = true → s.fill.val + bs.length < 64)
    (hlen : bs.length ≤ 64) : Holds (m ++ bs) (absorbBytes s bs) := by
  induction bs generalizing m s with
  | nil => simpa using h
  | cons b bs ih =>
    simp only [List.length_cons] at hroom hlen
    rw [List.append_cons, absorbBytes_cons]
    by_cases hf : s.fill.val = 63
    · have hb : s.busy = false := Bool.eq_false_iff.2 fun hc => by have := hroom hc; omega
      refine ih (holds_absorbByte_full h b hf hb) (fun _ => ?_) (by omega)
      rw [absorbByte_full s b hf]
      simp; omega
    · have hlt : s.fill.val < 63 := by omega
      refine ih (holds_absorbByte_room h b hlt) (fun hc => ?_) (by omega)
      rw [absorbByte_room s b hlt] at hc ⊢
      have := hroom hc
      simp only
      omega

/-! ### The engine's turn -/

/-- In OPEN a completed block is the last whole block, and none follows it (R167). -/
theorem holds_engineStep (h : Holds m s) (hp : s.phase = .opened) : Holds m (engineStep s) := by
  rcases engineStep_cases s with ⟨-, he⟩ | ⟨ht, hb, he⟩ | ⟨hb, ht, he⟩ <;> rw [he]
  · exact h
  · obtain ⟨blocks, b, hblocks, hf⟩ := h.flight hb
    exact {
      fill := h.fill
      tail := h.tail
      quiet := fun hc => by rw [roundStep_busy, hb] at hc; cases hc
      flight := fun _ => ⟨blocks, b, hblocks, inFlight_roundStep hf ht⟩ }
  · obtain ⟨blocks, b, hblocks, hf⟩ := h.flight hb
    rw [feedForwardStep, afterBlock, if_neg (by simp [hp]), if_neg (by simp [hp])]
    exact {
      fill := h.fill
      tail := h.tail
      quiet := fun _ => by rw [hblocks, compressAll_snoc]; exact feedForward_inFlight hf ht
      flight := nofun }

/-! ### A step of a session -/

/-- The engine's turn never opens a session. -/
theorem phase_of_engineStep_opened (h : (engineStep s).phase = .opened) : s.phase = .opened := by
  rcases engineStep_cases s with ⟨-, he⟩ | ⟨_, -, he⟩ | ⟨-, -, he⟩ <;> rw [he] at h
  · exact h
  · exact h
  · rw [feedForwardStep] at h
    rcases afterBlock_cases { s with hash := feedForward s.hash s.work } with ⟨-, -, ha⟩ | ⟨-, -, ha⟩ | ⟨-, ha⟩ <;> rw [ha] at h
    · exact h
    · cases h
    · exact h

/-- A step that leaves the session OPEN started from OPEN, and what the session holds grows by the bytes absorbed. -/
theorem holds_step (h : s.phase = .opened → Holds m s) (hr : nextIsReset s = false) (hi : nextCommand s ≠ some .init)
    (hstep : step s = .next t) (ht : t.phase = .opened) : Holds (m ++ absorbedNext s) t := by
  cases step_effect hstep with
  | port later ans he hnil =>
    subst he
    rw [hnil, List.append_nil]
    exact holds_of_same (h ht) rfl rfl rfl rfl rfl rfl rfl
  | data later v hin he =>
    subst he
    rw [absorbedNext_of_not_absorb (by simp [nextCommand_of_write_elsewhere (by omega) hin]), List.append_nil]
    exact holds_of_same (h ht) rfl rfl rfl rfl rfl rfl rfl
  | raise later c hp he => subst he; cases ht
  | init later hc hb he => exact absurd hc hi
  | absorb later n hc hp hb he =>
    subst he
    rw [absorbedNext_of_absorb hc hp hb]
    refine holds_absorbBytes _ (holds_of_same (h hp) rfl rfl rfl rfl rfl rfl rfl) (fun hbusy => ?_) (by simp)
    exact absurd hbusy (by simp [hb])
  | final later hc hp hb he => subst he; cases ht
  | engine later hin he =>
    subst he
    have hp : s.phase = .opened := phase_of_engineStep_opened (s := awaiting later s) ht
    rw [absorbedNext_of_not_absorb (by simp [nextCommand_of_no_access hin]), List.append_nil]
    exact holds_engineStep (holds_of_same (h hp) rfl rfl rfl rfl rfl rfl rfl) hp
  | reset later hreset he => rw [hr] at hreset; cases hreset

end

/-- Every state of a session that is OPEN holds the message absorbed. -/
theorem sessionRun_holds {m : List Byte} {s : State} (hs : SessionRun m s) (hp : s.phase = .opened) : Holds m s := by
  induction hs with
  | start hc hb hstep =>
    obtain ⟨later, he⟩ := step_nextCommand hc
    rw [he, exec_init] at hstep
    rw [execInit, if_neg (by simp [hb])] at hstep
    cases hstep
    exact holds_openSession hb
  | more _ hr hi hstep _ ih => exact holds_step ih hr hi hstep hp

/-- Settles O57: the quiet case of what an OPEN session holds. -/
theorem openSessionHoldsChainingValue : Obligations.OpenSessionHoldsChainingValue :=
  fun _ _ hs hp hb => (sessionRun_holds hs hp).quiet hb

end Sys2Proof.Proofs.OpenSession
end

section
/-! The command words (30_encoding.md R100, R105): the decoder reads back the command whose word the encoder made. -/

namespace Sys2Proof.Proofs.CommandWord
open Sys2Proof Sys2Proof.Machine

theorem splitWord_encode (i : Instr) : splitWord (encode i) = i.fields := by
  cases i with
  | nop => exact Laws.Encoding.nop.2
  | init => exact Laws.Encoding.init.2
  | absorb nbm1 => exact (Laws.Encoding.absorb nbm1).2
  | final => exact Laws.Encoding.final.2

theorem decodeFields_fields (i : Instr) : decodeFields i.fields = .ok i := by
  cases i <;> rfl

theorem decode_encode (i : Instr) : decode (encode i) = .ok i := by
  rw [decode, splitWord_encode, decodeFields_fields]

end Sys2Proof.Proofs.CommandWord
end

section
/-! The register window as the host sees it (20_memory.md R71–R75, R90): what an access does by its offset, and where it stops. -/

namespace Sys2Proof.Proofs.Window
open Sys2Proof Sys2Proof.Machine Sys2Proof.Proofs.Effects Sys2Proof.Proofs.CommandWord

/-! ### Reads and writes by offset -/

/-- R47 by offset: the register of each word slot. -/
theorem regAt_aligned (off : Fin 64) (ho : off.val % 4 = 0) :
    regAt off =
      if off.val = 0x00 then .ctrl
      else if off.val = 0x04 then .status
      else if off.val = 0x08 then .data
      else if off.val = 0x10 then .bitlenLo
      else if off.val = 0x14 then .bitlenHi
      else if h : 0x20 ≤ off.val then .digest ⟨(off.val - 0x20) / 4, by omega⟩
      else .reserved := by
  revert off; decide +kernel

theorem regRead_digest (s : State) (j : Fin 8) : regRead s (.digest j) = s.hash.toList.getD j.val 0 := by
  simp [regRead]

/-- R74 by offset: slot by slot, the value read. -/
theorem regRead_aligned (s : State) (off : Fin 64) (ho : off.val % 4 = 0) :
    regRead s (regAt off) =
      if off.val = 0x00 then 0
      else if off.val = 0x04 then statusWord s
      else if off.val = 0x08 then s.data
      else if off.val = 0x10 then s.bitlen.extractLsb' 0 32
      else if off.val = 0x14 then s.bitlen.extractLsb' 32 32
      else if 0x20 ≤ off.val then s.hash.toList.getD ((off.val - 0x20) / 4) 0
      else 0 := by
  rw [regAt_aligned off ho]
  split_ifs
  · rfl
  · rfl
  · rfl
  · rfl
  · rfl
  · exact regRead_digest s _
  · rfl

/-- R75 by offset: only CTRL and DATA take a write. -/
theorem regWrite_aligned (s : State) (off : Fin 64) (v : Word) (ho : off.val % 4 = 0) :
    regWrite (regAt off) v s =
      if off.val = 0x00 then executeCommand v s
      else if off.val = 0x08 then .next { s with data := v }
      else .next s := by
  split_ifs with hctrl hdata
  · rw [(regAt_ctrl off).2 (by omega)]; rfl
  · rw [(regAt_data off).2 (by omega)]; rfl
  · exact regWrite_other _ _ _ (by rw [Ne, regAt_ctrl]; omega) (by rw [Ne, regAt_data]; omega)

/-- Settles O36: the step answers the read of the register at the offset. -/
theorem alignedReadAnswersRegister : Obligations.AlignedReadAnswersRegister := by
  intro s later off hoff ho hi
  rw [step_read s later ⟨off, hoff⟩ ho hi, regRead_aligned s ⟨off, hoff⟩ ho]

/-- Settles O37: the step is the write of the register at the offset. -/
theorem alignedWriteEffect : Obligations.AlignedWriteEffect := by
  intro s later off v hoff ho hi
  rw [step_write s later ⟨off, hoff⟩ v ho hi, regWrite_aligned _ ⟨off, hoff⟩ _ ho]

/-! ### Where an access stops -/

/-- Settles O38: in the window only a misshapen access stops, with a BusError. -/
theorem misshapenAccessIsBusError : Obligations.MisshapenAccessIsBusError := by
  intro s later a hi hlow hhigh hshape
  rcases step_of_access s a later hi with ⟨hout, -⟩ | ⟨off, ha, ⟨-, hfault⟩ | ⟨hsize, halign, -⟩⟩
  · omega
  · exact hfault
  · omega

/-- Settles O39: no offset of the window reaches the address. -/
theorem outsideAccessIsRefused : Obligations.OutsideAccessIsRefused := by
  intro s later a hi hout
  rcases step_of_access s a later hi with ⟨-, hrefused⟩ | ⟨off, ha, -⟩
  · exact hrefused
  · omega

/-! ### The window stays -/

theorem step_basePage {s t : State} (h : step s = .next t) : t.basePage = s.basePage := by
  cases step_effect h with
  | port later ans ht _ => subst ht; rfl
  | data later v _ ht => subst ht; rfl
  | raise later c _ ht => subst ht; rfl
  | init later _ _ ht => subst ht; rfl
  | absorb later n _ _ _ ht =>
    obtain ⟨-, -, -, -, -, hbase, -, -⟩ :=
      absorbBytes_frame (messageBytes (byteCount n) s.data) { s with inbox := later, answer := .ok }
    exact ht ▸ hbase
  | final later _ _ _ ht => subst ht; rfl
  | engine later _ ht =>
    obtain ⟨-, -, -, -, hbase, -, -⟩ := engineStep_frame (awaiting later s)
    exact ht ▸ hbase
  | reset later _ ht => subst ht; rfl

/-- Settles O50: no effect of a step reaches the field that holds the window's place. -/
theorem noStepMovesTheWindow : Obligations.NoStepMovesTheWindow := by
  intro s t h
  exact ⟨by rw [shaBase, step_basePage h, shaBase], shaBase_mod t⟩

/-! ### Placing a command -/

/-- The word placed is the next write to CTRL, which executes it. -/
theorem step_withFetchWord (s : State) (v : Word) :
    step (s.withFetchWord 32 v.toNat) = executeCommand v { s with answer := .ok } := by
  have hv : BitVec.ofNat 32 (v.toNat % 2 ^ 32) = v := by
    rw [Nat.mod_eq_of_lt v.isLt, BitVec.ofNat_toNat, BitVec.setWidth_eq]
  rw [step_ctrl (s.withFetchWord 32 v.toNat) s.inbox (v.toNat % 2 ^ 32) rfl, hv]
  rfl

/-- Settles O6: the placed word decodes to its command. -/
theorem placedCommandRuns : Obligations.PlacedCommandRuns := by
  intro s i
  rw [step_withFetchWord, executeCommand, decode_encode]

end Sys2Proof.Proofs.Window
end

section
/-! The byte lanes of DATA (20_memory.md R80, R82; 00_scope.md R10). -/

namespace Sys2Proof.Proofs.ByteLanes
open Sys2Proof Sys2Proof.Machine

/-- R82: byte k of a word, most significant first. -/
theorem getElem?_be32Bytes (x : Word) (k : Nat) (h : k < 4) : (be32Bytes x)[k]? = some (x.extractLsb' (24 - 8 * k) 8) := by
  have hk : k = 0 ∨ k = 1 ∨ k = 2 ∨ k = 3 := by omega
  rcases hk with rfl | rfl | rfl | rfl <;> rfl

theorem lastByte_append {w : Nat} (x : BitVec w) (b : Byte) : (x ++ b).extractLsb' 0 8 = b := by
  rw [BitVec.extractLsb'_append_eq_of_add_le (by omega), BitVec.extractLsb'_eq_self]

/-- A byte above the last one is a byte of what stands before it. -/
theorem earlierByte_append {w : Nat} (x : BitVec w) (b : Byte) (k : Nat) :
    (x ++ b).extractLsb' (k + 8) 8 = x.extractLsb' k 8 := by
  rw [BitVec.extractLsb'_append_eq_of_le (by omega), Nat.add_sub_cancel]

/-- R10, R82: the bytes of the big-endian value of four bytes are those bytes, in order. -/
theorem be32Bytes_be32 (b0 b1 b2 b3 : Byte) : be32Bytes (be32 b0 b1 b2 b3) = [b0, b1, b2, b3] := by
  have h0 : (be32 b0 b1 b2 b3).extractLsb' 24 8 = b0 := by
    rw [be32, earlierByte_append _ _ 16, earlierByte_append _ _ 8, earlierByte_append _ _ 0, BitVec.extractLsb'_eq_self]
  have h1 : (be32 b0 b1 b2 b3).extractLsb' 16 8 = b1 := by
    rw [be32, earlierByte_append _ _ 8, earlierByte_append _ _ 0, lastByte_append]
  have h2 : (be32 b0 b1 b2 b3).extractLsb' 8 8 = b2 := by
    rw [be32, earlierByte_append _ _ 0, lastByte_append]
  have h3 : (be32 b0 b1 b2 b3).extractLsb' 0 8 = b3 := lastByte_append _ _
  rw [be32Bytes, h0, h1, h2, h3]

/-- Settles O42: the bytes of ABSORB n are the first n of DATA's four. -/
theorem dataByteLanes : Obligations.DataByteLanes := by
  refine ⟨fun d n hn => ⟨?_, fun k hk => ?_⟩, fun b0 b1 b2 b3 => ?_⟩
  · rw [length_messageBytes, Nat.min_eq_left hn]
  · rw [messageBytes, List.getElem?_take_of_lt hk, getElem?_be32Bytes d k (by omega)]
  · rw [messageBytes, be32Bytes_be32]
    rfl

end Sys2Proof.Proofs.ByteLanes
end

section
/-! Decoding and encoding are inverse (30_encoding.md R100–R107, R111): the fields of a word name a command exactly when they pass the three checks of
R105, and a word is its fields. -/

namespace Sys2Proof.Proofs.Decoder
open Sys2Proof Sys2Proof.Proofs.CommandWord

/-! ### Fields -/

/-- R104, R105: the three checks as facts about the fields. -/
theorem wellFormed_iff (f : CmdFields) :
    f.wellFormed = true ↔ f.rsvd = 0 ∧ f.opc.toNat < 4 ∧ (f.opc = 2 ∨ f.nbm1 = 0) := by
  simp [CmdFields.wellFormed, CmdFields.reservedZero, CmdFields.opcodeDefined, CmdFields.byteCountAllowed, and_assoc]

/-- R101: the four operation codes that are defined. -/
theorem opcode_cases (opc : BitVec 4) (h : opc.toNat < 4) : opc = 0 ∨ opc = 1 ∨ opc = 2 ∨ opc = 3 := by
  bv_omega

/-- R105: a command is read only from fields that pass every check. -/
theorem wellFormed_of_decodeFields_ok {f : CmdFields} {i : Instr} (h : decodeFields f = .ok i) : f.wellFormed = true := by
  unfold decodeFields at h
  split_ifs at h with hrsvd hopc hbytes
  simpa [CmdFields.wellFormed, and_assoc] using And.intro hrsvd (And.intro hopc hbytes)

/-- R106: fields that pass every check are a row of the table of commands. -/
theorem eq_fields_of_wellFormed {f : CmdFields} (h : f.wellFormed = true) : ∃ i : Instr, f = i.fields := by
  obtain ⟨rsvd, nbm1, opc⟩ := f
  obtain ⟨hrsvd, hopc, hbytes⟩ := (wellFormed_iff _).1 h
  dsimp only at hrsvd hopc hbytes
  subst hrsvd
  rcases opcode_cases opc hopc with rfl | rfl | rfl | rfl
  · exact ⟨.nop, by rw [hbytes.resolve_left (by decide)]; rfl⟩
  · exact ⟨.init, by rw [hbytes.resolve_left (by decide)]; rfl⟩
  · exact ⟨.absorb nbm1, rfl⟩
  · exact ⟨.final, by rw [hbytes.resolve_left (by decide)]; rfl⟩

theorem decodeFields_eq_ok_iff (f : CmdFields) (i : Instr) : decodeFields f = .ok i ↔ f = i.fields := by
  constructor
  · intro h
    obtain ⟨j, rfl⟩ := eq_fields_of_wellFormed (wellFormed_of_decodeFields_ok h)
    rw [decodeFields_fields, Except.ok.injEq] at h
    rw [h]
  · rintro rfl
    exact decodeFields_fields i

/-! ### Words -/

/-- R100: the three fields are the whole word. -/
theorem joinFields_splitWord (v : Word) : joinFields (splitWord v) = v := by
  have hhigh : v.extractLsb' 6 26 ++ v.extractLsb' 4 2 = v.extractLsb' 4 28 :=
    BitVec.extractLsb'_append_extractLsb'_eq_extractLsb' rfl
  have hword : v.extractLsb' 4 28 ++ v.extractLsb' 0 4 = v.extractLsb' 0 32 :=
    BitVec.extractLsb'_append_extractLsb'_eq_extractLsb' rfl
  rw [joinFields, splitWord, hhigh, hword, BitVec.extractLsb'_eq_self]

/-- Settles O1: the fields read from v are those of i, and v is the word of its fields. -/
theorem decodeEncodeAgree : Obligations.DecodeEncodeAgree := by
  intro v i
  constructor
  · intro h
    rw [encode, ← (decodeFields_eq_ok_iff _ i).1 h, joinFields_splitWord]
  · rintro rfl
    exact decode_encode i

/-- Settles O2: by O1, the pairs are the commands with their words. -/
theorem sevenLegalWords : Obligations.SevenLegalWords := by
  intro v i
  rw [decodeEncodeAgree v i]
  cases i with
  | nop => change v = 0x00000000#32 ↔ _; simp
  | init => change v = 0x00000001#32 ↔ _; simp
  | absorb nbm1 =>
    have hn : nbm1 = 0 ∨ nbm1 = 1 ∨ nbm1 = 2 ∨ nbm1 = 3 := by bv_omega
    rcases hn with rfl | rfl | rfl | rfl
    · change v = 0x00000002#32 ↔ _; simp
    · change v = 0x00000012#32 ↔ _; simp
    · change v = 0x00000022#32 ↔ _; simp
    · change v = 0x00000032#32 ↔ _; simp
  | final => change v = 0x00000003#32 ↔ _; simp

/-- Settles O4: a word that decodes passes the checks, which neither case does. -/
theorem reservedBitsAreIllegal : Obligations.ReservedBitsAreIllegal := by
  intro v hv
  cases hd : decode v with
  | error e => exact ⟨e, rfl⟩
  | ok i =>
    obtain ⟨hrsvd, -, hbytes⟩ := (wellFormed_iff _).1 (wellFormed_of_decodeFields_ok hd)
    rcases hv with h | ⟨hnbm1, hopc⟩
    · exact absurd hrsvd h
    · exact (hbytes.elim hopc hnbm1).elim

/-- Settles O3: the four words are those of their commands, and each of the other three fails one check. -/
theorem tableWordsDecode : Obligations.TableWordsDecode :=
  ⟨decode_encode .nop, decode_encode .init, decode_encode (.absorb 2), decode_encode .final, rfl, rfl, rfl⟩

end Sys2Proof.Proofs.Decoder
end

section
/-! The host agent's commands (30_encoding.md R109). -/

namespace Sys2Proof.Proofs.HostCommands
open Sys2Proof Sys2Proof.Machine Sys2Proof.Proofs.Window

/-- R109, 10_state.md R48: the transaction of a command statement is the access that the step after placing the command serves. -/
theorem portAccess_command (s : State) (i : Instr) :
    portAccess (.write (shaBase s) 4 (encode i).toNat) (awaiting s.inbox s) = exec i { s with answer := .ok } := by
  have hplaced := placedCommandRuns s i
  rw [State.withFetchWord, Nat.mod_eq_of_lt (encode i).isLt] at hplaced
  exact hplaced

/-- Settles O60: the command ends in a next state, whose answer a command statement does not keep. -/
theorem hostCommandStatementRunsCommand : Obligations.HostCommandStatementRunsCommand := by
  intro y i hi
  obtain ⟨t, ht⟩ := exec_answers_next i { y.engine with answer := .ok }
  refine ⟨t, ht, ?_⟩
  simp only [hostTurn, hi, transaction, portAccess_command, ht]
  rfl

end Sys2Proof.Proofs.HostCommands
end

section
/-! The derivation of the constants (40_constants.md R130–R137): the integer roots are floors, and the trial division lists exactly the primes. -/

namespace Sys2Proof.Proofs.Constants
open Sys2Proof Sys2Proof.Machine

/-! ### Roots -/

/-- With the root between `acc` and `acc + 2^b`, the remaining b bits determine it: each bit halves the gap. -/
theorem rootBits_isFloor (k n : Nat) : ∀ b acc : Nat, acc ^ k ≤ n → n < (acc + 2 ^ b) ^ k →
    rootBits k n b acc ^ k ≤ n ∧ n < (rootBits k n b acc + 1) ^ k := by
  intro b
  induction b with
  | zero => exact fun acc hlo hhi => ⟨hlo, hhi⟩
  | succ b ih =>
    intro acc hlo hhi
    have hgap : acc + 2 ^ b + 2 ^ b = acc + 2 ^ (b + 1) := by omega
    rw [rootBits]
    split
    next hbit => exact ih _ hbit (hgap ▸ hhi)
    next hbit => exact ih _ hlo (Nat.lt_of_not_le hbit)

/-- The bits that `rootFloor` starts from are enough. -/
theorem lt_pow_rootFloor_bits (k n : Nat) (hk : 0 < k) : n < (2 ^ (n.log2 / k + 1)) ^ k :=
  calc n < 2 ^ (n.log2 + 1) := Nat.lt_log2_self
    _ ≤ 2 ^ ((n.log2 / k + 1) * k) :=
      Nat.pow_le_pow_right Nat.two_pos (Nat.mul_comm _ k ▸ Nat.lt_mul_div_succ n.log2 hk)
    _ = (2 ^ (n.log2 / k + 1)) ^ k := Nat.pow_mul ..

theorem rootFloor_isFloor (k n : Nat) (hk : 0 < k) : rootFloor k n ^ k ≤ n ∧ n < (rootFloor k n + 1) ^ k :=
  rootBits_isFloor k n _ 0 (by simp [hk.ne']) (by simpa using lt_pow_rootFloor_bits k n hk)

/-- Settles O33: both roots are `rootFloor`. -/
theorem rootsAreFloors : Obligations.RootsAreFloors :=
  fun n => ⟨rootFloor_isFloor 2 n Nat.two_pos, rootFloor_isFloor 3 n (by decide)⟩

theorem le_isqrt_of_sq_le {m n : Nat} (h : m ^ 2 ≤ n) : m ≤ isqrt n :=
  Nat.le_of_lt_succ (lt_of_pow_lt_pow_left₀ 2 (Nat.zero_le _) (h.trans_lt (rootsAreFloors n).1.2))

/-! ### Trial division -/

/-- What the loop of R130 keeps at candidate c: the primes found so far are those below c, in increasing order. -/
structure PrimesBelow (c : Nat) (ps : List Nat) : Prop where
  increasing : ps.Pairwise (· < ·)
  mem_iff : ∀ p, p ∈ ps ↔ p.Prime ∧ p < c

/-- A composite c fails at its least factor, whose square is at most c. -/
theorem passesTrial_iff_prime {c : Nat} {ps : List Nat} (h : PrimesBelow c ps) (hc : 2 ≤ c) :
    passesTrial ps c = true ↔ c.Prime := by
  have hspec : passesTrial ps c = true ↔ ∀ p ∈ ps, p ≤ isqrt c → ¬ p ∣ c := by
    simp [passesTrial, Nat.dvd_iff_mod_eq_zero, Classical.or_iff_not_imp_left]
  rw [hspec]
  constructor
  · intro hpass
    by_contra hcomp
    have hmem : c.minFac ∈ ps :=
      (h.mem_iff _).2 ⟨Nat.minFac_prime (by omega), (Nat.not_prime_iff_minFac_lt hc).1 hcomp⟩
    exact hpass _ hmem (le_isqrt_of_sq_le (Nat.minFac_sq_le_self (by omega) hcomp)) (Nat.minFac_dvd c)
  · intro hprime p hp _ hdvd
    obtain ⟨hpp, hlt⟩ := (h.mem_iff p).1 hp
    exact hlt.ne ((Nat.prime_dvd_prime_iff_eq hpp hprime).1 hdvd)

theorem primesBelow_three : PrimesBelow 3 [2] where
  increasing := List.pairwise_singleton ..
  mem_iff p := by
    constructor
    · intro hp
      rw [List.mem_singleton.1 hp]
      exact ⟨Nat.prime_two, by omega⟩
    · rintro ⟨hp, hlt⟩
      have := hp.two_le
      exact List.mem_singleton.2 (by omega)

/-- One turn of the loop: between c and c + 2 there is c, which the trial judges, and an even number, which is no prime. -/
theorem primesBelow_next {c : Nat} {ps : List Nat} (h : PrimesBelow c ps) (hc : 3 ≤ c) (hodd : c % 2 = 1) :
    PrimesBelow (c + 2) (if passesTrial ps c then ps ++ [c] else ps) := by
  have hlt (p : Nat) (hp : p.Prime) : p < c + 2 ↔ p < c ∨ p = c := by
    have := hp.eq_two_or_odd
    omega
  have htrial := passesTrial_iff_prime h (by omega)
  split
  next hpass =>
    refine ⟨List.pairwise_append.2 ⟨h.increasing, List.pairwise_singleton .., ?_⟩, fun p => ?_⟩
    · intro p hp q hq
      rw [List.mem_singleton.1 hq]
      exact ((h.mem_iff p).1 hp).2
    · have hprime : p = c → p.Prime := fun e => e ▸ htrial.1 hpass
      rw [List.mem_append, List.mem_singleton, h.mem_iff, and_congr_right (hlt p)]
      tauto
  next hfail =>
    refine ⟨h.increasing, fun p => ?_⟩
    have hcomp : p.Prime → p ≠ c := fun hp e => hfail (htrial.2 (e ▸ hp))
    rw [h.mem_iff, and_congr_right (hlt p)]
    tauto

theorem primesLoop_primesBelow (n : Nat) : ∀ (fuel c : Nat) (ps : List Nat), PrimesBelow c ps → 3 ≤ c → c % 2 = 1 →
    ∃ c', PrimesBelow c' (primesLoop n fuel c ps) := by
  intro fuel
  induction fuel with
  | zero => exact fun c _ h _ _ => ⟨c, h⟩
  | succ fuel ih =>
    intro c ps h hc hodd
    rw [primesLoop]
    split
    · exact ih _ _ (primesBelow_next h hc hodd) (by omega) (by omega)
    · exact ⟨c, h⟩

theorem primes_primesBelow (n : Nat) : ∃ c, PrimesBelow c (primes n) :=
  primesLoop_primesBelow n _ 3 [2] primesBelow_three (by omega) (by omega)

/-- A list of the primes below some bound is the list of the primes up to its last entry. -/
theorem mem_iff_le_last {c q : Nat} {ps : List Nat} (h : PrimesBelow c ps) (hq : ps.getLast? = some q) (p : Nat) :
    p ∈ ps ↔ p.Prime ∧ p ≤ q := by
  obtain ⟨front, rfl⟩ := List.getLast?_eq_some_iff.1 hq
  have hlast : q < c := ((h.mem_iff q).1 (by simp)).2
  have hfront : ∀ p ∈ front, p < q := by simpa using (List.pairwise_append.1 h.increasing).2.2
  constructor
  · intro hp
    refine ⟨((h.mem_iff p).1 hp).1, ?_⟩
    rcases List.mem_append.1 hp with hp | hp
    · exact (hfront p hp).le
    · exact (List.mem_singleton.1 hp).le
  · rintro ⟨hp, hle⟩
    exact (h.mem_iff p).2 ⟨hp, hle.trans_lt hlast⟩

/-- R131: the loop stops at 64 entries, before its fuel is spent. -/
theorem primes_64_length : (primes 64).length = 64 := by decide +kernel

/-- R131: the last prime used. -/
theorem primes_64_last : (primes 64).getLast? = some 311 := by decide +kernel

/-- Settles O34: the loop's invariant gives the order and, with the last entry, the membership. -/
theorem primesAreTheFirstPrimes : Obligations.PrimesAreTheFirstPrimes := by
  obtain ⟨c, hc⟩ := primes_primesBelow 64
  exact ⟨primes_64_length, hc.increasing, primes_64_last, mem_iff_le_last hc primes_64_last⟩

/-! ### The ROMs -/

/-- R135, R136. -/
theorem kRom_derived : kRom.toList = (primes 64).map roundConstantOf := by decide +kernel

/-- R137. -/
theorem ivRom_derived : ivRom.toList = (primes 8).map initialValueOf := by decide +kernel

/-- Settles O35: both fixed tables are evaluated against the derivation. -/
theorem romsHoldTheDerivation : Obligations.RomsHoldTheDerivation := ⟨kRom_derived, ivRom_derived⟩

end Sys2Proof.Proofs.Constants
end

section
/-! The padding and the chunks of a byte sequence (41_padding_sequencer.md R160–R164). -/

namespace Sys2Proof.Proofs.Padding
open Sys2Proof Sys2Proof.Machine Sys2Proof.Proofs.Blocks

/-! ### Lengths -/

/-- R161: the zeros bring the message and the mark to 56 bytes past a block. -/
theorem zeroCount_fills (n : Nat) : (n + 1 + zeroCount n) % 64 = 56 := by
  unfold zeroCount
  omega

/-- R161: the zero count is below 64, so no other count that fills is smaller. -/
theorem zeroCount_le (n z : Nat) (hz : (n + 1 + z) % 64 = 56) : zeroCount n ≤ z := by
  unfold zeroCount
  omega

/-- R160, R161: the message, the mark, the zeros and the length field are nb(L) blocks. -/
theorem length_pad (m : List Byte) : (pad m).length = 64 * blockCount m.length := by
  have hparts : (pad m).length = m.length + 1 + zeroCount m.length + 8 := by simp [pad]; omega
  rw [hparts, zeroCount, blockCount]
  omega

theorem length_pad_mod (m : List Byte) : (pad m).length % 64 = 0 := by
  rw [length_pad, Nat.mul_mod_right]

/-- Settles O52: the count fills, no smaller one does, and the length is counted. -/
theorem paddingIsMinimal : Obligations.PaddingIsMinimal :=
  fun m => ⟨zeroCount_fills m.length, zeroCount_le m.length, length_pad m⟩

/-! ### The length field -/

/-- The big-endian value of n followed by the bytes (00_scope.md R10). -/
def bigEndianFrom (n : Nat) (bs : List Byte) : Nat := bs.foldl (fun n b => 256 * n + b.toNat) n

theorem bigEndianFrom_append (n : Nat) (bs cs : List Byte) :
    bigEndianFrom n (bs ++ cs) = bigEndianFrom (bigEndianFrom n bs) cs := List.foldl_append

theorem bigEndianFrom_be32Bytes (n : Nat) (x : Word) : bigEndianFrom n (be32Bytes x) = 2 ^ 32 * n + x.toNat := by
  have hx := x.isLt
  simp only [bigEndianFrom, be32Bytes, List.foldl_cons, List.foldl_nil, BitVec.extractLsb'_toNat, Nat.shiftRight_eq_div_pow]
  omega

theorem bigEndianFrom_be64Bytes (v : DWord) : bigEndianFrom 0 (be64Bytes v) = v.toNat := by
  have hv := v.isLt
  rw [be64Bytes, bigEndianFrom_append, bigEndianFrom_be32Bytes, bigEndianFrom_be32Bytes]
  simp only [BitVec.extractLsb'_toNat, Nat.shiftRight_eq_div_pow]
  omega

/-- R160: the last 8 bytes are the length field. -/
theorem drop_pad (m : List Byte) :
    (pad m).drop ((pad m).length - 8) = be64Bytes (BitVec.ofNat 64 (8 * m.length)) :=
  List.drop_left' (by simp [pad]; omega)

/-- R162: below 2^61 bytes the length field holds the number of bits. -/
theorem bigEndianFrom_lengthField (m : List Byte) (h : m.length < 2 ^ 61) :
    bigEndianFrom 0 ((pad m).drop ((pad m).length - 8)) = 8 * m.length := by
  rw [drop_pad, bigEndianFrom_be64Bytes, BitVec.toNat_ofNat, Nat.mod_eq_of_lt (by omega)]

/-- Settles O53: the lengths are those of O52, and the length field is read back. -/
theorem paddingProperties : Obligations.PaddingProperties := by
  refine ⟨fun m => ⟨length_pad_mod m, ?_⟩, bigEndianFrom_lengthField, fun m h => ?_, fun m h => ?_⟩
  · rw [length_pad, blockCount]
    omega
  · rw [length_pad, h, blockCount]
  · rw [length_pad, h, blockCount]

/-! ### Chunks -/

/-- R164: a whole chunk is the run of 64 bytes at its place. -/
theorem toList_chunkAt (p : List Byte) (i : Nat) (hi : 64 * i + 64 ≤ p.length) :
    (chunkAt p i).toList = (p.drop (64 * i)).take 64 := by
  refine List.ext_getElem (by simp; omega) fun j hj _ => ?_
  have hj : j < 64 := by simpa using hj
  have hbyte := getElem?_eq_chunkAt p i j hi hj
  rw [List.getElem?_eq_getElem (by omega)] at hbyte
  simpa using (Option.some.inj hbyte).symm

/-- R163: the first k chunks, in order, are the first 64·k bytes. -/
theorem flatMap_chunkAt_range (p : List Byte) (k : Nat) (hk : 64 * k ≤ p.length) :
    ((List.range k).map (chunkAt p)).flatMap (·.toList) = p.take (64 * k) := by
  induction k with
  | zero => rfl
  | succ k ih =>
    rw [List.range_succ, List.map_append, List.flatMap_append, ih (by omega), Nat.mul_succ, List.take_add]
    simp [toList_chunkAt p k hk]

theorem chunks_eq_wholeBlocks {p : List Byte} (h : p.length % 64 = 0) : chunks p = .ok (wholeBlocks p) := if_pos h

/-- Settles O54: the chunks are the whole blocks, and a padded message has no bytes beside them. -/
theorem chunksReconstructSequence : Obligations.ChunksReconstructSequence := by
  refine ⟨fun p h => ⟨wholeBlocks p, chunks_eq_wholeBlocks h, ?_, by simp [wholeBlocks]⟩, fun p h => if_neg h,
    fun m => ⟨_, chunks_eq_wholeBlocks (length_pad_mod m)⟩⟩
  rw [wholeBlocks, flatMap_chunkAt_range p _ (by omega)]
  exact List.take_of_length_le (by omega)

end Sys2Proof.Proofs.Padding
end

section
/-! The sequencer's part of the state along the steps: which effects change PHASE (41_padding_sequencer.md R169), and what BITLEN, FILL and BUF
hold in a session (R168; 10_state.md R35, R36). -/

namespace Sys2Proof.Proofs.Sequencer
open Sys2Proof Sys2Proof.Machine Sys2Proof.Proofs.Effects Sys2Proof.Proofs.OpenSession

/-! ### PHASE -/

theorem afterBlock_phase {s : State} (h : (afterBlock s).phase ≠ s.phase) :
    s.phase = .finishing ∧ s.padpend = false ∧ (afterBlock s).phase = .done ∧ (afterBlock s).busy = false := by
  rcases afterBlock_cases s with ⟨-, -, he⟩ | ⟨hp, hd, he⟩ | ⟨-, he⟩ <;> rw [he] at h ⊢
  · exact absurd rfl h
  · exact ⟨hp, hd, rfl, rfl⟩
  · exact absurd rfl h

/-- R167: PHASE changes at the engine's turn only by the feed-forward of the last padding block. -/
theorem engineStep_phase {s : State} (h : (engineStep s).phase ≠ s.phase) :
    s.phase = .finishing ∧ s.padpend = false ∧ s.busy = true ∧ s.t.val = 64 ∧
      (engineStep s).phase = .done ∧ (engineStep s).busy = false := by
  rcases engineStep_cases s with ⟨-, he⟩ | ⟨_, -, he⟩ | ⟨hb, ht, he⟩ <;> rw [he] at h ⊢
  · exact absurd rfl h
  · exact absurd rfl h
  · obtain ⟨hp, hd, hdone, hquiet⟩ := afterBlock_phase h
    exact ⟨hp, hd, hb, ht, hdone, hquiet⟩

theorem causeCode_ne_zero (c : Cause) : causeCode c ≠ 0 := by
  cases c <;> decide

/-- Settles O46: of the effects of a step five change PHASE, each by its own row of the table. -/
theorem phaseTransitions : Obligations.PhaseTransitions := by
  intro s t h hphase
  cases step_effect h with
  | port later ans ht _ => subst ht; exact absurd rfl hphase
  | data later v _ ht => subst ht; exact absurd rfl hphase
  | raise later c hp ht => subst ht; exact .inr (.inr (.inr (.inr ⟨hp, rfl, causeCode_ne_zero c⟩)))
  | init later hc hb ht => subst ht; exact .inr (.inl ⟨hc, hb, rfl⟩)
  | absorb later n _ _ _ ht =>
    subst ht
    obtain ⟨-, -, hsame, -⟩ := absorbBytes_frame (messageBytes (byteCount n) s.data) { s with inbox := later, answer := .ok }
    exact absurd hsame hphase
  | final later hc hp hb ht => subst ht; exact .inr (.inr (.inl ⟨hc, hp, hb, rfl, rfl⟩))
  | engine later _ ht => subst ht; exact .inr (.inr (.inr (.inl (engineStep_phase (s := awaiting later s) hphase))))
  | reset later hr ht => subst ht; exact .inl ⟨hr, rfl⟩

/-! ### BITLEN -/

theorem absorbByte_bitlen (s : State) (b : Byte) : (absorbByte s b).bitlen = s.bitlen + 8 := by
  unfold absorbByte
  simp only []
  split <;> rfl

/-- R168: the number of bits of a message of n bytes, as BITLEN counts it. -/
def bitCount (n : Nat) : DWord := BitVec.ofNat 64 (8 * n)

theorem bitCount_add (m n : Nat) : bitCount (m + n) = bitCount m + bitCount n := by
  rw [bitCount, Nat.mul_add, BitVec.ofNat_add]
  rfl

theorem absorbBytes_bitlen (bs : List Byte) (s : State) : (absorbBytes s bs).bitlen = s.bitlen + bitCount bs.length := by
  induction bs generalizing s with
  | nil => simp [bitCount]
  | cons b bs ih =>
    rw [absorbBytes_cons, ih, absorbByte_bitlen, List.length_cons, Nat.add_comm bs.length, bitCount_add, BitVec.add_assoc]
    rfl

/-- R36, R168: a step that neither ends the session nor begins another adds the bits it absorbs to BITLEN. -/
theorem step_bitlen {s t : State} (hr : nextIsReset s = false) (hi : nextCommand s ≠ some .init) (hstep : step s = .next t)
    (ht : t.phase ≠ .error) : t.bitlen = s.bitlen + bitCount (absorbedNext s).length := by
  have quiet (he : t.bitlen = s.bitlen) (hnil : absorbedNext s = []) :
      t.bitlen = s.bitlen + bitCount (absorbedNext s).length := by
    simp [he, hnil, bitCount]
  cases step_effect hstep with
  | port later ans he hnil => subst he; exact quiet rfl hnil
  | data later v hin he =>
    subst he
    exact quiet rfl (absorbedNext_of_not_absorb (by simp [nextCommand_of_write_elsewhere (by omega) hin]))
  | raise later c hp he => subst he; exact absurd rfl ht
  | init later hc hb he => exact absurd hc hi
  | absorb later n hc hp hb he => subst he; rw [absorbedNext_of_absorb hc hp hb, absorbBytes_bitlen]
  | final later hc hp hb he => subst he; exact quiet rfl (absorbedNext_of_not_absorb (by simp [hc]))
  | engine later hin he =>
    subst he
    obtain ⟨-, -, hsame, -⟩ := engineStep_frame (awaiting later s)
    exact quiet hsame (absorbedNext_of_not_absorb (by simp [nextCommand_of_no_access hin]))
  | reset later hreset he => rw [hr] at hreset; cases hreset

theorem sessionRun_bitlen {m : List Byte} {s : State} (hs : SessionRun m s) : s.bitlen = bitCount m.length := by
  induction hs with
  | start hc hb hstep =>
    obtain ⟨later, he⟩ := step_nextCommand hc
    rw [he, exec_init, execInit, if_neg (by simp [hb])] at hstep
    cases hstep
    rfl
  | more _ hr hi hstep ht ih => rw [step_bitlen hr hi hstep ht, ih, List.length_append, bitCount_add]

/-! ### FILL and BUF -/

/-- R35: the first FILL bytes of BUF are all that follows the whole blocks. -/
theorem take_buf_eq_drop {m : List Byte} {s : State} (h : Holds m s) :
    s.buf.toList.take s.fill.val = m.drop (64 * (m.length / 64)) := by
  have hfill := h.fill
  refine List.ext_getElem (by simp; omega) fun i hi _ => ?_
  have hi : i < s.fill.val := by simp at hi; omega
  have hbyte := h.tail i (by omega) hi
  rw [List.getElem?_eq_getElem (by omega)] at hbyte
  simpa using (Option.some.inj hbyte).symm

/-- Settles O56: BITLEN by induction on the session, FILL and BUF from what an OPEN session holds. -/
theorem sessionHoldsMessageTail : Obligations.SessionHoldsMessageTail := by
  intro m s hs
  refine ⟨sessionRun_bitlen hs, fun hp => ?_⟩
  have hholds := sessionRun_holds hs hp
  exact ⟨hholds.fill, take_buf_eq_drop hholds⟩

end Sys2Proof.Proofs.Sequencer
end

section
/-! The message scheduler (42_scheduler.md): the words of a schedule are the block's own sixteen (R192), then each the next word of those before
it (R193). -/

namespace Sys2Proof.Proofs.Scheduler
open Sys2Proof Sys2Proof.Machine

/-- R194: a word of the schedule in the list of its words. -/
theorem schedule_getElem (b : Block) (i : Nat) (hi : i < 64) :
    (schedule b)[i] = (scheduleWords b)[i]'(by rwa [length_scheduleWords]) := rfl

/-- R194: the words of the schedule, newest first. -/
theorem reverse_scheduleWords (b : Block) :
    (scheduleWords b).reverse = extendSchedule 48 (bytesToWords b.toList).reverse :=
  List.reverse_reverse _

/-! ### The words of the block -/

/-- R192: the word of the j-th group of four bytes. -/
theorem bytesToWords_getElem? (bs : List Byte) (j : Nat) (hj : 4 * j + 3 < bs.length) :
    (bytesToWords bs)[j]? = some (be32 bs[4 * j] bs[4 * j + 1] bs[4 * j + 2] bs[4 * j + 3]) := by
  induction j generalizing bs with
  | zero =>
    match bs, hj with
    | b0 :: b1 :: b2 :: b3 :: rest, _ => rfl
  | succ j ih =>
    match bs, hj with
    | b0 :: b1 :: b2 :: b3 :: rest, hj =>
      rw [bytesToWords, List.getElem?_cons_succ, ih rest (by simp at hj; omega)]
      rfl

theorem suffix_extendSchedule (n : Nat) (ws : List Word) : ws <:+ extendSchedule n ws := by
  induction n generalizing ws with
  | zero => exact List.suffix_rfl
  | succ n ih => exact (List.suffix_cons _ ws).trans (ih (nextWord ws :: ws))

/-- R192: the schedule begins with the words of the block. -/
theorem bytesToWords_prefix_scheduleWords (b : Block) : bytesToWords b.toList <+: scheduleWords b := by
  rw [← List.reverse_suffix, reverse_scheduleWords]
  exact suffix_extendSchedule 48 _

/-- Settles O28: the schedule begins with the words of the block, and those are the groups of four bytes. -/
theorem scheduleStartsWithBlockWords : Obligations.ScheduleStartsWithBlockWords := by
  intro b j
  have hword := bytesToWords_getElem? b.toList j (by simp; omega)
  obtain ⟨hj, hword⟩ := List.getElem?_eq_some_iff.mp hword
  rw [schedule_getElem, ← (bytesToWords_prefix_scheduleWords b).getElem hj, hword]
  simp only [Vector.getElem_toList]

/-! ### The recurrence -/

/-- R193: each word that extends a schedule, with the words before it (newest first) behind it, is their next word. -/
theorem eq_nextWord_of_suffix {n : Nat} {ws before : List Word} {w : Word} (h : w :: before <:+ extendSchedule n ws)
    (hlen : ws.length ≤ before.length) : w = nextWord before := by
  induction n generalizing ws with
  | zero =>
    have := h.length_le
    simp only [extendSchedule, List.length_cons] at this
    omega
  | succ n ih =>
    rw [extendSchedule] at h
    by_cases hlater : ws.length < before.length
    · exact ih h hlater
    · have hsame : (w :: before).length = (nextWord ws :: ws).length := by simp; omega
      have hfirst := List.suffix_of_suffix_length_le h (suffix_extendSchedule n (nextWord ws :: ws)) hsame.le
      obtain ⟨rfl, rfl⟩ := List.cons.inj (hfirst.eq_of_length hsame)
      rfl

/-- The words of the schedule before W[i], newest first. -/
def wordsBefore (b : Block) (i : Nat) : List Word := ((scheduleWords b).take i).reverse

/-- R193: W[i−k] stands at index k − 1 of the words before W[i]. -/
theorem wordsBefore_getD (b : Block) {i k : Nat} (hk : k < i) (hi : i < 64) :
    (wordsBefore b i).getD k 0 = (schedule b)[i - (k + 1)] := by
  have hlen := length_scheduleWords b
  have hword : (wordsBefore b i)[k]? = some (schedule b)[i - (k + 1)] := by
    rw [wordsBefore, List.getElem?_reverse (by simp; omega), List.length_take, Nat.min_eq_left (by omega),
      List.getElem?_take_of_lt (by omega), schedule_getElem, show i - 1 - k = i - (k + 1) by omega,
      List.getElem?_eq_getElem]
  rw [List.getD_eq_getElem?_getD, hword, Option.getD_some]

theorem schedule_eq_nextWord (b : Block) {i : Nat} (h16 : 16 ≤ i) (hi : i < 64) :
    (schedule b)[i] = nextWord (wordsBefore b i) := by
  have hlen := length_scheduleWords b
  have hprefix : (scheduleWords b).take (i + 1) <+: scheduleWords b := List.take_prefix _ _
  rw [List.take_succ_eq_append_getElem (by omega), ← List.reverse_suffix, List.reverse_append, reverse_scheduleWords] at hprefix
  refine eq_nextWord_of_suffix hprefix ?_
  simp only [wordsBefore, List.length_reverse, length_bytesToWords 16 b.toList (by simp), List.length_take]
  omega

/-- Settles O29: a word past the sixteenth is the next word of those before it, which stand newest first. -/
theorem scheduleRecurrence : Obligations.ScheduleRecurrence := by
  intro b i h16 hi
  rw [schedule_eq_nextWord b h16 hi, nextWord, wordsBefore_getD b (by omega) hi, wordsBefore_getD b (by omega) hi,
    wordsBefore_getD b (by omega) hi, wordsBefore_getD b (by omega) hi]

end Sys2Proof.Proofs.Scheduler
end

section
/-! The compressor (43_compressor.md): the round functions bit by bit (R211, R213), the engine's round and feed-forward steps (R220, R221), and the
65 steps from a Launch to the compressed hash state (R222). -/

namespace Sys2Proof.Proofs.Compressor
open Sys2Proof Sys2Proof.Machine Sys2Proof.Proofs.Flight

/-! ### The round functions -/

theorem getLsbD_ch (e f g : Word) {i : Nat} (hi : i < 32) :
    (ch e f g).getLsbD i = ((e.getLsbD i && f.getLsbD i) ^^ (!e.getLsbD i && g.getLsbD i)) := by
  simp only [ch, BitVec.getLsbD_xor, BitVec.getLsbD_and, BitVec.getLsbD_not, hi, decide_true, Bool.true_and]

theorem getLsbD_maj (a b c : Word) (i : Nat) :
    (maj a b c).getLsbD i =
      ((a.getLsbD i && b.getLsbD i) ^^ (a.getLsbD i && c.getLsbD i) ^^ (b.getLsbD i && c.getLsbD i)) := by
  simp only [maj, BitVec.getLsbD_xor, BitVec.getLsbD_and]

/-- Of the three products of two of the bits an odd number is 1 exactly when two of the bits are. -/
theorem xor_products_iff_majority (x y z : Bool) :
    ((x && y) ^^ (x && z) ^^ (y && z)) = true ↔ 2 ≤ x.toNat + y.toNat + z.toNat := by
  decide +revert

/-- Settles O30: the bit of e lets one of the two products through. -/
theorem chooseSelectsBitwise : Obligations.ChooseSelectsBitwise := by
  intro e f g i hi
  rw [getLsbD_ch e f g hi]
  cases e.getLsbD i with
  | true => simp
  | false => simp

/-- Settles O31: the majority of three bits, at every place of the words. -/
theorem majorityBitwise : Obligations.MajorityBitwise := by
  intro a b c i _
  rw [getLsbD_maj]
  exact xor_products_iff_majority _ _ _

/-! ### The round step -/

/-- Settles O22: the engine's turn is `roundStep`, and Round(t) is the simultaneous assignment written out. -/
theorem roundStepComputesRound : Obligations.RoundStepComputesRound := by
  intro s ht hb
  rw [engineStep_round s hb ht]
  rfl

/-- Settles O23: no register is made of a..h or t, the two elements a round step writes. -/
theorem roundStepIsInvisible : Obligations.RoundStepIsInvisible := by
  intro s hb ht r
  rw [engineStep_round s hb ht]
  cases r <;> rfl

/-! ### The feed-forward -/

/-- R221: H after the engine's turn at t = 64. -/
theorem engineStep_hash_of_feedForward {s : State} (hb : s.busy = true) (ht : s.t.val = 64) :
    (engineStep s).hash = feedForward s.hash s.work := by
  rw [engineStep_feedForward s hb ht, feedForwardStep_hash]

/-- Settles O24: H is fed forward, and AfterBlock acts on the state with the new H. -/
theorem feedForwardStepOutcome : Obligations.FeedForwardStepOutcome := by
  intro s hb ht
  have hash := engineStep_hash_of_feedForward hb ht
  have turn : engineStep s = afterBlock { s with hash := feedForward s.hash s.work } := engineStep_feedForward s hb ht
  rw [hash, turn]
  refine ⟨rfl, fun hp hd => ⟨lengthBlock s.buf s.bitlen, ?_, fun i => getElem_lengthBlock _ _ _ i.isLt⟩, fun hp hd => ?_,
    fun hp => ?_⟩
  · rw [afterBlock, if_pos ⟨hp, hd⟩, launch, hb]
  · rw [afterBlock, if_neg (by simp [hd]), if_pos hp]
  · rw [afterBlock, if_neg (by simp [hp]), if_neg hp]

/-! ### From a Launch to the compressed hash state -/

/-- The last of n + 1 turns of the engine comes after the first n. -/
theorem engineRun_succ (n : Nat) (s : State) : engineRun (n + 1) s = engineStep (engineRun n s) := by
  induction n generalizing s with
  | zero => rfl
  | succ n ih => exact ih (engineStep s)

/-- R219: a launched block is in flight with no round done. -/
theorem inFlight_launch (s : State) : InFlight s.hash s.buf (launch s) where
  busy := rfl
  hash := rfl
  sched := rfl
  work := rfl

/-- R220: n turns of the engine after a Launch do n rounds of the block. -/
theorem inFlight_engineRun_launch (s : State) {n : Nat} (hn : n ≤ 64) :
    InFlight s.hash s.buf (engineRun n (launch s)) ∧ (engineRun n (launch s)).t.val = n := by
  induction n with
  | zero => exact ⟨inFlight_launch s, rfl⟩
  | succ n ih =>
    obtain ⟨hf, ht⟩ := ih (by omega)
    have hround : (engineRun n (launch s)).t.val < 64 := by omega
    rw [engineRun_succ, engineStep_round _ hf.busy hround]
    exact ⟨inFlight_roundStep hf hround, congrArg (· + 1) ht⟩

/-- Settles O26: the 65th turn feeds the block forward, whose 64 rounds the first 64 turns did. -/
theorem engineStepsComputeCompress : Obligations.EngineStepsComputeCompress := by
  refine fun s => ⟨fun n hn => ?_, ?_⟩
  · obtain ⟨hf, ht⟩ := inFlight_engineRun_launch s hn
    exact ⟨ht, hf.busy, hf.hash⟩
  · obtain ⟨hf, ht⟩ := inFlight_engineRun_launch s le_rfl
    rw [engineRun_succ, engineStep_hash_of_feedForward hf.busy ht, feedForward_inFlight hf ht]

end Sys2Proof.Proofs.Compressor
end

section
/-! The commands one by one (44_commands.md R240–R244): the exact next state of each, and what every command leaves unchanged. -/

namespace Sys2Proof.Proofs.Commands
open Sys2Proof Sys2Proof.Machine Sys2Proof.Proofs.ByteLanes

/-! ### NOP, INIT, and a command written to CTRL -/

/-- Settles O5: the write to CTRL executes the word, which decodes to the command. -/
theorem stepRunsDecodedCommand : Obligations.StepRunsDecodedCommand := by
  intro s later v i hi hd _
  rw [step_ctrl s later v hi, executeCommand, hd]

/-- Settles O9: the fields of NOP are all zero, and its rule is the identity. -/
theorem nopChangesNothing : Obligations.NopChangesNothing :=
  ⟨rfl, exec_nop⟩

/-- Settles O10: while BUSY = 0 no check of INIT fails. -/
theorem initOpensSession : Obligations.InitOpensSession := by
  intro s hb
  rw [exec_init, execInit, if_neg (by simp [hb])]
  rfl

/-- Settles O11: while BUSY = 1 PHASE decides whether INIT is ignored or recorded as an error. -/
theorem initWhileBusy : Obligations.InitWhileBusy := by
  intro s hb
  rw [exec_init, execInit, if_pos hb]
  split
  · rfl
  · rfl

/-! ### ABSORB -/

/-- R80: byte k of ABSORB's message bytes. -/
theorem getElem_messageBytes (n : Nat) (d : Word) (k : Nat) (h : k < (messageBytes n d).length) :
    (messageBytes n d)[k] = d.extractLsb' (24 - 8 * k) 8 := by
  have hk : k < 4 := by rw [length_messageBytes] at h; omega
  have hbyte := getElem?_be32Bytes d k hk
  rw [List.getElem?_eq_getElem (by simpa using hk)] at hbyte
  simpa [messageBytes] using hbyte

theorem length_absorbed (nbm1 : BitVec 2) (d : Word) : (messageBytes (byteCount nbm1) d).length = nbm1.toNat + 1 := by
  rw [length_messageBytes, Nat.min_eq_left (byteCount_le nbm1), byteCount]

/-- R243: an ABSORB that no check stops appends its bytes of DATA. -/
theorem exec_absorb_open {s : State} (nbm1 : BitVec 2) (hp : s.phase = .opened) (hb : s.busy = false) :
    exec (.absorb nbm1) s = .next (absorbBytes s (messageBytes (byteCount nbm1) s.data)) := by
  rw [exec_absorb, inOpenSession_open _ _ hp hb]

/-- Settles O12: with room for them the bytes are one run written at BUF[FILL]. -/
theorem absorbAppendsBytes : Obligations.AbsorbAppendsBytes := by
  intro s nbm1 hp hb hroom
  have hlen := length_absorbed nbm1 s.data
  refine ⟨writeBytes s.buf s.fill.val (messageBytes (byteCount nbm1) s.data), ⟨s.fill.val + (nbm1.toNat + 1), hroom⟩, ?_, rfl,
    fun i => ?_⟩
  · rw [exec_absorb_open nbm1 hp hb, absorbBytes_room _ s (by rw [hlen]; exact hroom)]
    simp only [hlen]
  · rw [Fin.getElem_fin, Fin.getElem_fin, getElem_writeBytes _ _ _ _ i.isLt]
    simp only [hlen, getElem_messageBytes, Fin.le_def, Fin.lt_def, dite_eq_ite]

/-- R165: the block that the bytes fill, with the bytes held in front. -/
def filledBlock (s : State) (bs : List Byte) : Block := writeBytes s.buf s.fill.val (bs.take (64 - s.fill.val))

theorem getElem_filledBlock (s : State) (bs : List Byte) (h : 64 ≤ s.fill.val + bs.length) (i : Nat) (hi : i < 64) :
    (filledBlock s bs)[i] = if hf : i < s.fill.val then s.buf[i] else bs[i - s.fill.val] := by
  rw [filledBlock, getElem_writeBytes _ _ _ _ hi]
  by_cases hf : i < s.fill.val
  · rw [dif_pos hf, dif_neg (by omega)]
  · rw [dif_neg hf, dif_pos (by rw [List.length_take]; omega), List.getElem_take]

/-- R165: bytes that reach the 64th launch the block they fill, and the rest of them stands at the front of BUF. -/
theorem absorbBytes_launch (s : State) (bs : List Byte) (h : 64 ≤ s.fill.val + bs.length) (hlen : bs.length < 64) :
    absorbBytes s bs = { s with
      buf := writeBytes (filledBlock s bs) 0 (bs.drop (64 - s.fill.val)),
      bitlen := s.bitlen + 8 * BitVec.ofNat 64 bs.length, fill := ⟨s.fill.val + bs.length - 64, by omega⟩,
      sched := schedule (filledBlock s bs), work := workOf s.hash, t := 0, busy := true } := by
  have hfill := s.fill.isLt
  have hfront : (bs.take (64 - s.fill.val)).length = 64 - s.fill.val := by rw [List.length_take]; omega
  have hrest : (bs.drop (64 - s.fill.val)).length = s.fill.val + bs.length - 64 := by rw [List.length_drop]; omega
  have hfull := absorbBytes_full s (bs.take (64 - s.fill.val)) (bs.drop (64 - s.fill.val)) (by omega)
    (List.ne_nil_of_length_pos (by omega)) (by omega)
  rw [List.take_append_drop, ← List.length_append, List.take_append_drop] at hfull
  simp only [hfull, hrest, filledBlock]

/-- Settles O13: the bytes up to the 64th fill the block, and the further ones are a run at BUF[0] after the Launch. -/
theorem absorbLaunchesFullBlock : Obligations.AbsorbLaunchesFullBlock := by
  intro s nbm1 hp hb hfull
  have hlen := length_absorbed nbm1 s.data
  have hnbm1 := nbm1.isLt
  have hfill := s.fill.isLt
  refine ⟨filledBlock s (messageBytes (byteCount nbm1) s.data),
    writeBytes (filledBlock s (messageBytes (byteCount nbm1) s.data)) 0
      ((messageBytes (byteCount nbm1) s.data).drop (64 - s.fill.val)),
    ⟨s.fill.val + (nbm1.toNat + 1) - 64, by omega⟩, ?_, Nat.sub_add_cancel hfull, fun i => ?_, fun i => ?_⟩
  · rw [exec_absorb_open nbm1 hp hb, absorbBytes_launch s _ (by omega) (by omega)]
    simp only [hlen]
    rfl
  · rw [Fin.getElem_fin, Fin.getElem_fin, getElem_filledBlock _ _ (by omega) _ i.isLt]
    simp only [getElem_messageBytes, Fin.lt_def, dite_eq_ite]
  · rw [Fin.getElem_fin, Fin.getElem_fin, getElem_writeBytes _ _ _ _ i.isLt]
    simp only [Fin.lt_def]
    by_cases hi : i.val < s.fill.val + (nbm1.toNat + 1) - 64
    · rw [dif_pos (by rw [List.length_drop]; omega), if_pos hi, List.getElem_drop, getElem_messageBytes, Nat.sub_zero]
    · rw [dif_neg (by rw [List.length_drop]; omega), if_neg hi]

/-! ### FINAL -/

/-- Settles O15: the block is `finalBlock`, whose bytes are known one by one. -/
theorem finalPadsAndLaunches : Obligations.FinalPadsAndLaunches := by
  intro s hp hb
  refine ⟨finalBlock s.buf s.fill s.bitlen, ?_, fun i => ?_⟩
  · rw [exec_final, inOpenSession_open _ _ hp hb]
    rfl
  · rw [Fin.getElem_fin, Fin.getElem_fin, getElem_finalBlock _ _ _ _ i.isLt]
    simp only [Fin.lt_def, Fin.ext_iff]

/-! ### The frame -/

section
variable {i : Instr} {s t : State}

/-- No command reaches DATA or the model's own fields. -/
theorem exec_port_frame (h : exec i s = .next t) :
    t.data = s.data ∧ t.basePage = s.basePage ∧ t.inbox = s.inbox ∧ t.answer = s.answer := by
  cases exec_cases h with
  | same ht _ => subst ht; exact ⟨rfl, rfl, rfl, rfl⟩
  | raise c ht _ => subst ht; exact ⟨rfl, rfl, rfl, rfl⟩
  | init _ _ ht => subst ht; exact ⟨rfl, rfl, rfl, rfl⟩
  | absorb n _ _ _ ht =>
    subst ht
    obtain ⟨-, hdata, -, -, -, hbase, hinbox, hanswer⟩ := absorbBytes_frame (messageBytes (byteCount n) s.data) s
    exact ⟨hdata, hbase, hinbox, hanswer⟩
  | final _ _ _ ht => subst ht; exact ⟨rfl, rfl, rfl, rfl⟩

theorem exec_hash (h : exec i s = .next t) (hi : i ≠ .init) : t.hash = s.hash := by
  cases exec_cases h with
  | same ht _ => rw [ht]
  | raise c ht _ => rw [ht, raiseError_hash]
  | init hinit _ _ => exact absurd hinit hi
  | absorb n _ _ _ ht => rw [ht]; exact (absorbBytes_frame _ s).1
  | final _ _ _ ht => rw [ht, finalPad_hash]

/-- R166: FINAL counts no bytes. -/
theorem exec_final_bitlen (h : exec .final s = .next t) : t.bitlen = s.bitlen := by
  cases exec_cases h with
  | same ht _ => rw [ht]
  | raise c ht _ => rw [ht, raiseError_bitlen]
  | init hi _ _ => cases hi
  | absorb n hi _ _ _ => cases hi
  | final _ _ _ ht => rw [ht, finalPad_bitlen]

/-- R242: INIT leaves the block buffer and the engine's block in flight. -/
theorem exec_init_engine (h : exec .init s = .next t) :
    t.buf = s.buf ∧ t.sched = s.sched ∧ t.work = s.work ∧ t.t = s.t ∧ t.busy = s.busy := by
  cases exec_cases h with
  | same ht _ => subst ht; exact ⟨rfl, rfl, rfl, rfl, rfl⟩
  | raise c ht _ => subst ht; exact ⟨rfl, rfl, rfl, rfl, rfl⟩
  | init _ _ ht => subst ht; exact ⟨rfl, rfl, rfl, rfl, rfl⟩
  | absorb n hi _ _ _ => cases hi
  | final hi _ _ _ => cases hi

/-- R241, R243, R244: in a quiet OPEN session no check stops a command, so only FINAL changes PHASE and PADPEND. -/
theorem exec_accepted_frame (h : exec i s = .next t) (hp : s.phase = .opened) (hb : s.busy = false) (hi : i ≠ .init) :
    t.errcode = s.errcode ∧ (i ≠ .final → t.phase = s.phase ∧ t.padpend = s.padpend) := by
  cases i with
  | nop => cases h; exact ⟨rfl, fun _ => ⟨rfl, rfl⟩⟩
  | init => exact absurd rfl hi
  | absorb n =>
    rw [exec_absorb_open n hp hb] at h
    cases h
    obtain ⟨-, -, hphase, hpad, hcode, -, -, -⟩ := absorbBytes_frame (messageBytes (byteCount n) s.data) s
    exact ⟨hcode, fun _ => ⟨hphase, hpad⟩⟩
  | final =>
    rw [exec_final, inOpenSession_open _ _ hp hb] at h
    cases h
    exact ⟨rfl, fun hf => absurd rfl hf⟩

/-- R284: outside a quiet OPEN session every command but an INIT with BUSY = 0 changes nothing or raises an error. -/
theorem exec_refused (h : exec i s = .next t) (hs : s.phase ≠ .opened ∨ s.busy = true) (hi : i ≠ .init ∨ s.busy = true) :
    t = s ∨ ∃ c, t = raiseError c s := by
  cases exec_cases h with
  | same ht _ => exact .inl ht
  | raise c ht _ => exact .inr ⟨c, ht⟩
  | init hinit hb _ => simp [hinit, hb] at hi
  | absorb n _ hp hb _ => simp [hp, hb] at hs
  | final _ hp hb _ => simp [hp, hb] at hs

/-- R283: what a command refused or ignored leaves. -/
theorem exec_refused_frame (h : exec i s = .next t) (hs : s.phase ≠ .opened ∨ s.busy = true) (hi : i ≠ .init ∨ s.busy = true) :
    t.hash = s.hash ∧ t.buf = s.buf ∧ t.fill = s.fill ∧ t.bitlen = s.bitlen ∧ t.sched = s.sched ∧ t.work = s.work ∧
      t.t = s.t ∧ t.busy = s.busy := by
  rcases exec_refused h hs hi with rfl | ⟨c, rfl⟩
  · exact ⟨rfl, rfl, rfl, rfl, rfl, rfl, rfl, rfl⟩
  · exact ⟨rfl, rfl, rfl, rfl, rfl, rfl, rfl, rfl⟩

end

/-- Settles O17: the frames of the accepted and of the refused commands together; NOP's state is the same state. -/
theorem commandFrame : Obligations.CommandFrame := by
  intro i s t h
  have hnop : i = .nop → t = s := by rintro rfl; cases h; rfl
  obtain ⟨hdata, hbase, hinbox, hanswer⟩ := exec_port_frame h
  refine ⟨hdata, hbase, hinbox, hanswer, exec_hash h, ?_, fun hi => by rw [hnop hi], ?_, exec_accepted_frame h, exec_refused_frame h⟩
  · rintro (hi | rfl)
    · rw [hnop hi]
    · exact exec_final_bitlen h
  · rintro (hi | rfl)
    · obtain rfl := hnop hi
      exact ⟨rfl, rfl, rfl, rfl, rfl⟩
    · exact exec_init_engine h

end Sys2Proof.Proofs.Commands
end

section
/-! The end of a session (44_commands.md R244–R247): the blocks that FINAL makes are those of the padded message (41_padding_sequencer.md R160–R167), so
DONE leaves the digest in H. -/

namespace Sys2Proof.Proofs.Sessions
open Sys2Proof Sys2Proof.Machine Sys2Proof.Proofs.Effects Sys2Proof.Proofs.Flight Sys2Proof.Proofs.Blocks
open Sys2Proof.Proofs.OpenSession Sys2Proof.Proofs.Padding Sys2Proof.Proofs.Sequencer Sys2Proof.Proofs.Compressor Sys2Proof.Proofs.Control

/-! ### Blocks as byte lists -/

/-- A run of bytes that reaches the end of the block. -/
theorem toList_writeBytes_to_end (buf : Block) (i : Nat) (bs : List Byte) (h : i + bs.length = 64) :
    (writeBytes buf i bs).toList = buf.toList.take i ++ bs := by
  refine List.ext_getElem (by simp; omega) fun j hj _ => ?_
  have hj : j < 64 := by simpa using hj
  rw [Vector.getElem_toList, getElem_writeBytes _ _ _ _ hj, List.getElem_append]
  have hlen : (buf.toList.take i).length = i := by simp; omega
  by_cases hi : i ≤ j
  · rw [dif_pos (by omega), dif_neg (by omega)]
    simp only [hlen]
  · rw [dif_neg (by omega), dif_pos (by omega), List.getElem_take, Vector.getElem_toList]

theorem take_toList_set (buf : Block) (f : Fin 64) (b : Byte) :
    (buf.set f.val b).toList.take (f.val + 1) = buf.toList.take f.val ++ [b] := by
  rw [List.take_succ_eq_append_getElem (by simp)]
  simp [Vector.toList_set, List.take_set_of_le]

/-- R166: with f ≤ 55 the first padding block is the last one. -/
theorem toList_finalBlock_room (buf : Block) (f : Fin 64) (bitlen : DWord) (hf : f.val ≤ 55) :
    (finalBlock buf f bitlen).toList = buf.toList.take f.val ++ [0x80] ++ zeros (55 - f.val) ++ be64Bytes bitlen := by
  rw [finalBlock, if_pos hf, toList_writeBytes_to_end _ _ _ (by simp; omega), take_toList_set, List.append_assoc _ (zeros _)]

/-- R166: with f ≥ 56 the length field does not fit. -/
theorem toList_finalBlock_full (buf : Block) (f : Fin 64) (bitlen : DWord) (hf : 55 < f.val) :
    (finalBlock buf f bitlen).toList = buf.toList.take f.val ++ [0x80] ++ zeros (63 - f.val) := by
  rw [finalBlock, if_neg (by omega), toList_writeBytes_to_end _ _ _ (by simp; omega), take_toList_set]

/-- R167: the second padding block, of which BUF gives nothing. -/
theorem toList_lengthBlock (buf : Block) (bitlen : DWord) : (lengthBlock buf bitlen).toList = zeros 56 ++ be64Bytes bitlen :=
  toList_writeBytes_to_end _ _ _ (by simp)

theorem zeros_append (m n : Nat) : zeros m ++ zeros n = zeros (m + n) := List.replicate_append_replicate

/-- Blocks with the same bytes in order are the same blocks. -/
theorem blocks_eq_of_bytes_eq {bs cs : List Block} (h : bs.flatMap (·.toList) = cs.flatMap (·.toList)) : bs = cs := by
  have hlen := congrArg List.length h
  simp only [List.length_flatMap, Vector.length_toList] at hlen
  induction bs generalizing cs with
  | nil => cases cs with
    | nil => rfl
    | cons c cs => simp at hlen; omega
  | cons b bs ih => cases cs with
    | nil => simp at hlen
    | cons c cs =>
      rw [List.flatMap_cons, List.flatMap_cons] at h
      obtain ⟨hbc, hrest⟩ := List.append_inj h (by simp)
      rw [Vector.toList_inj.1 hbc, ih hrest (by simpa using hlen)]

theorem flatMap_wholeBlocks (p : List Byte) : (wholeBlocks p).flatMap (·.toList) = p.take (64 * (p.length / 64)) :=
  flatMap_chunkAt_range p _ (by omega)

/-! ### What is left to compress after FINAL -/

/-- R167: the block that AfterBlock is still to make. -/
def pendingBlocks (s : State) : List Block := if s.padpend then [lengthBlock s.buf s.bitlen] else []

/-- R160, R166: the bytes held, then FINAL's blocks, are the bytes of the message after its whole blocks and their padding. -/
theorem bytes_finalPad {m : List Byte} {s : State} (h : Holds m s) (hlen : s.bitlen = bitCount m.length) :
    (finalBlock s.buf s.fill s.bitlen :: pendingBlocks (finalPad s)).flatMap (·.toList) =
      m.drop (64 * (m.length / 64)) ++ [0x80] ++ zeros (zeroCount m.length) ++ be64Bytes (bitCount m.length) := by
  have hfill := h.fill
  rw [← take_buf_eq_drop h, ← hlen, List.flatMap_cons, pendingBlocks, finalPad_padpend]
  by_cases hf : s.fill.val ≤ 55
  · have hzeros : zeroCount m.length = 55 - s.fill.val := by unfold zeroCount; omega
    rw [if_neg (by simpa using hf), List.flatMap_nil, List.append_nil, toList_finalBlock_room _ _ _ hf, hzeros]
  · have hzeros : zeroCount m.length = 63 - s.fill.val + 56 := by unfold zeroCount; omega
    rw [if_pos (by simpa using hf), List.flatMap_singleton, toList_lengthBlock, toList_finalBlock_full _ _ _ (by omega), hzeros,
      ← zeros_append]
    simp

/-- R164, R166: the blocks of the padded message are the whole blocks of the message and those that FINAL makes. -/
theorem wholeBlocks_pad {m : List Byte} {s : State} (h : Holds m s) (hlen : s.bitlen = bitCount m.length) :
    wholeBlocks (pad m) = wholeBlocks m ++ finalBlock s.buf s.fill s.bitlen :: pendingBlocks (finalPad s) := by
  refine blocks_eq_of_bytes_eq ?_
  have hpad := length_pad_mod m
  have hall : (pad m).take (64 * ((pad m).length / 64)) = pad m := List.take_of_length_le (by omega)
  rw [List.flatMap_append, flatMap_wholeBlocks, flatMap_wholeBlocks, hall, bytes_finalPad h hlen, pad]
  simp only [← List.append_assoc, List.take_append_drop]
  rfl

/-- R245: the digest is the chaining value of the blocks of the padded message. -/
theorem digest_eq (m : List Byte) : digest m = .ok (compressAll (wholeBlocks (pad m))) := by
  rw [digest, chunks_eq_wholeBlocks (length_pad_mod m)]
  rfl

/-! ### A session from FINAL to DONE -/

/-- In FINISHING a block of the padded message is in flight, with at most one to come; in DONE all are compressed. -/
structure Closes (m : List Byte) (s : State) : Prop where
  finishing : s.phase = .finishing → ∃ blocks b, wholeBlocks (pad m) = blocks ++ b :: pendingBlocks s ∧ InFlight (compressAll blocks) b s
  done      : s.phase = .done → s.busy = false ∧ s.hash = compressAll (wholeBlocks (pad m))

section
variable {m : List Byte} {s t : State}

theorem closes_of_open (hp : s.phase = .opened) : Closes m s where
  finishing h := by rw [hp] at h; cases h
  done h := by rw [hp] at h; cases h

theorem closes_finalPad (h : Holds m s) (hb : s.busy = false) (hlen : s.bitlen = bitCount m.length) : Closes m (finalPad s) where
  finishing _ := ⟨wholeBlocks m, _, wholeBlocks_pad h hlen, by rw [← h.quiet hb]; exact ⟨rfl, rfl, rfl, rfl⟩⟩
  done := nofun

/-- R167: the feed-forward of a padding block goes on to the pending block, or to DONE. -/
theorem closes_afterBlock {blocks : List Block} {b : Block} (hp : s.phase = .finishing)
    (hblocks : wholeBlocks (pad m) = blocks ++ b :: pendingBlocks s) (hhash : s.hash = compress (compressAll blocks) b) :
    Closes m (afterBlock s) := by
  rw [← compressAll_snoc] at hhash
  rcases afterBlock_cases s with ⟨-, hd, he⟩ | ⟨-, hd, he⟩ | ⟨hn, -⟩
  · rw [he]
    refine ⟨fun _ => ⟨blocks ++ [b], lengthBlock s.buf s.bitlen, ?_, ?_⟩, fun hc => ?_⟩
    · simp [hblocks, pendingBlocks, hd]
    · rw [← hhash]
      exact inFlight_launch { s with buf := lengthBlock s.buf s.bitlen, padpend := false }
    · rw [launch_phase, hp] at hc
      cases hc
  · rw [he]
    refine ⟨nofun, fun _ => ⟨rfl, ?_⟩⟩
    simp [hblocks, pendingBlocks, hd, hhash]
  · exact absurd hp hn

/-- R220, R221: the engine goes on with the block in flight. -/
theorem closes_engineStep_finishing (h : Closes m s) (hp : s.phase = .finishing) : Closes m (engineStep s) := by
  obtain ⟨blocks, b, hblocks, hf⟩ := h.finishing hp
  rcases engineStep_cases s with ⟨-, he⟩ | ⟨ht, -, he⟩ | ⟨-, ht, he⟩ <;> rw [he]
  · exact h
  · exact ⟨fun _ => ⟨blocks, b, hblocks, inFlight_roundStep hf ht⟩, fun hc => by rw [roundStep_phase, hp] at hc; cases hc⟩
  · exact closes_afterBlock (s := { s with hash := feedForward s.hash s.work }) hp hblocks (feedForward_inFlight hf ht)

/-- R39, R169: outside FINISHING the engine's turn leads to no other phase, and in DONE the engine is quiet. -/
theorem closes_engineStep (h : Closes m s) : Closes m (engineStep s) := by
  by_cases hp : s.phase = .finishing
  · exact closes_engineStep_finishing h hp
  · have hphase : (engineStep s).phase = s.phase := not_not.1 fun hc => hp (engineStep_phase hc).1
    refine ⟨fun hc => absurd (hphase.symm.trans hc) hp, fun hc => ?_⟩
    have hdone := h.done (hphase.symm.trans hc)
    rw [quietEngineHasNoStep s hdone.1]
    exact hdone

theorem closes_of_same (h : Closes m s) (hhash : t.hash = s.hash) (hwork : t.work = s.work) (hsched : t.sched = s.sched)
    (ht : t.t = s.t) (hbuf : t.buf = s.buf) (hbitlen : t.bitlen = s.bitlen) (hphase : t.phase = s.phase)
    (hbusy : t.busy = s.busy) (hpad : t.padpend = s.padpend) : Closes m t where
  finishing hp := by
    obtain ⟨blocks, b, hblocks, hf⟩ := h.finishing (hphase ▸ hp)
    refine ⟨blocks, b, ?_, hbusy.trans hf.busy, hhash.trans hf.hash, hsched.trans hf.sched, by rw [hwork, hf.work, ht]⟩
    rw [hblocks, pendingBlocks, pendingBlocks, hpad, hbuf, hbitlen]
  done hp := by rw [hbusy, hhash]; exact h.done (hphase ▸ hp)

/-- A step that neither ends the session nor begins another goes on with what FINAL left to compress. -/
theorem closes_step (hopen : s.phase = .opened → Holds m s) (hlen : s.bitlen = bitCount m.length) (h : Closes m s)
    (hr : nextIsReset s = false) (hi : nextCommand s ≠ some .init) (hstep : step s = .next t) (ht : t.phase ≠ .error) :
    Closes (m ++ absorbedNext s) t := by
  cases step_effect hstep with
  | port later ans he hnil => rw [he, hnil, List.append_nil]; exact closes_of_same h rfl rfl rfl rfl rfl rfl rfl rfl rfl
  | data later v hin he =>
    rw [he, absorbedNext_of_not_absorb (by simp [nextCommand_of_write_elsewhere (by omega) hin]), List.append_nil]
    exact closes_of_same h rfl rfl rfl rfl rfl rfl rfl rfl rfl
  | raise later c _ he => subst he; exact absurd rfl ht
  | init later hc _ _ => exact absurd hc hi
  | absorb later n _ hp _ he =>
    obtain ⟨-, -, hphase, -⟩ := absorbBytes_frame (messageBytes (byteCount n) s.data) { s with inbox := later, answer := .ok }
    subst he
    exact closes_of_open (hphase.trans hp)
  | final later hc hp hb he =>
    rw [he, absorbedNext_of_not_absorb (by simp [hc]), List.append_nil]
    exact closes_finalPad (holds_of_same (hopen hp) rfl rfl rfl rfl rfl rfl rfl) hb hlen
  | engine later hin he =>
    rw [he, absorbedNext_of_not_absorb (by simp [nextCommand_of_no_access hin]), List.append_nil]
    exact closes_engineStep (closes_of_same h rfl rfl rfl rfl rfl rfl rfl rfl rfl)
  | reset later hreset _ => rw [hr] at hreset; cases hreset

theorem sessionRun_closes (hs : SessionRun m s) : Closes m s := by
  induction hs with
  | start hc hb hstep => exact closes_of_open (by rw [step_init hstep hc, hb]; rfl)
  | more hs hr hi hstep ht ih => exact closes_step (sessionRun_holds hs) (sessionRun_bitlen hs) ih hr hi hstep ht

theorem digest_of_done (hs : SessionRun m s) (hp : s.phase = .done) : digest m = .ok s.hash := by
  rw [digest_eq, ((sessionRun_closes hs).done hp).2]

/-- R246, R285: with BUSY = 0 in DONE or ERROR only a reset and INIT have an effect on H, BUSY or the end of the session. -/
theorem step_keeps_result (hp : s.phase = .done ∨ s.phase = .error) (hb : s.busy = false) (hstep : step s = .next t)
    (hr : nextIsReset s = false) (hi : nextCommand s ≠ some .init) :
    t.hash = s.hash ∧ t.busy = false ∧ (t.phase = .done ∨ t.phase = .error) := by
  have hclosed : s.phase ≠ .opened := fun hc => by simp [hc] at hp
  cases step_effect hstep with
  | port later ans he _ => subst he; exact ⟨rfl, hb, hp⟩
  | data later v _ he => subst he; exact ⟨rfl, hb, hp⟩
  | raise later c _ he => subst he; exact ⟨rfl, hb, .inr rfl⟩
  | init later hc _ _ => exact absurd hc hi
  | absorb later n _ ho _ _ => exact absurd ho hclosed
  | final later _ ho _ _ => exact absurd ho hclosed
  | engine later _ he =>
    rw [quietEngineHasNoStep (awaiting later s) hb] at he
    subst he
    exact ⟨rfl, hb, hp⟩
  | reset later hreset _ => rw [hr] at hreset; cases hreset

end

/-! ### The result of a session -/

/-- Settles O58: the session closes with the padded message's blocks compressed, and a quiet closed session keeps them. -/
theorem sessionComputesDigest : Obligations.SessionComputesDigest :=
  ⟨fun _ _ => digest_of_done, fun _ _ => step_keeps_result⟩

/-- Settles O59: both sessions hold the digest of the same message. -/
theorem sessionsAreIsolated : Obligations.SessionsAreIsolated := by
  intro m s₁ s₂ h₁ h₂ hp₁ hp₂
  exact Except.ok.inj ((digest_of_done h₁ hp₁).symm.trans (digest_of_done h₂ hp₂))

/-! ### BITLEN after FINAL -/

/-- Settles O49: outside OPEN no bytes are absorbed, and of the other effects of a step only INIT and a reset reach BITLEN. -/
theorem lengthFrozenAfterFinal : Obligations.LengthFrozenAfterFinal := by
  intro s t hp hstep hlen
  have hclosed : s.phase ≠ .opened := fun hc => by simp [hc] at hp
  cases step_effect hstep with
  | port later ans he _ => subst he; exact absurd rfl hlen
  | data later v _ he => subst he; exact absurd rfl hlen
  | raise later c _ he => subst he; exact absurd rfl hlen
  | init later hc hb _ => exact .inr ⟨hc, hb⟩
  | absorb later n _ ho _ _ => exact absurd ho hclosed
  | final later _ ho _ _ => exact absurd ho hclosed
  | engine later _ he =>
    obtain ⟨-, -, hsame, -⟩ := engineStep_frame (awaiting later s)
    subst he
    exact absurd hsame hlen
  | reset later hr _ => exact .inl hr

end Sys2Proof.Proofs.Sessions
end

section
/-! Where the machine stops (44_commands.md R250): a host access that reaches a register answers a next state, as does every other event. -/

namespace Sys2Proof.Proofs.Stops
open Sys2Proof Sys2Proof.Machine

theorem executeCommand_answers_next (v : Word) (s : State) : ∃ t, executeCommand v s = .next t := by
  unfold executeCommand
  split
  · exact exec_answers_next _ s
  · exact ⟨_, rfl⟩

theorem accessReg_answers_next (a : Access) (r : Reg) (s : State) : ∃ t, accessReg a r s = .next t := by
  cases a with
  | read addr size => exact ⟨_, rfl⟩
  | write addr size value =>
    cases r with
    | ctrl => exact executeCommand_answers_next _ _
    | _ => exact ⟨_, rfl⟩

/-- Settles O40: event by event; an access stops only before it reaches a register. -/
theorem onlyHostAccessesStop : Obligations.OnlyHostAccessesStop := by
  intro s
  cases hi : s.inbox with
  | nil => exact .inl ⟨_, step_nil s hi⟩
  | cons e later =>
    cases e with
    | engineTurn => exact .inl ⟨_, step_cons s _ later hi⟩
    | reset => exact .inl ⟨_, step_cons s _ later hi⟩
    | access a =>
      have hbase := shaBase_mod s
      rcases step_of_access s a later hi with ⟨hout, hr⟩ | ⟨off, ha, ⟨hshape, hf⟩ | ⟨-, -, hstep⟩⟩
      · exact .inr ⟨a, later, rfl, .inl ⟨hr, by omega⟩⟩
      · exact .inr ⟨a, later, rfl, .inr ⟨hf, by omega⟩⟩
      · rw [hstep]
        exact .inl (accessReg_answers_next a _ _)

end Sys2Proof.Proofs.Stops
end

section
/-! Errors (60_exceptions.md R280–R290): what raises one, what ERROR ignores, what leaves it, and what runs on in it. -/

namespace Sys2Proof.Proofs.Exceptions
open Sys2Proof Sys2Proof.Machine Sys2Proof.Proofs.Sequencer Sys2Proof.Proofs.Padding
open Sys2Proof.Proofs.Commands Sys2Proof.Proofs.Stops

/-- Settles O18: the code of each cause is the one written out. -/
theorem raiseErrorWritesThreeElements : Obligations.RaiseErrorWritesThreeElements := by
  intro c s
  cases c with
  | illegalCmd => rfl
  | busyViolation => rfl
  | sequence => rfl

/-! ### The checks of a command word (R284) -/

section
variable {s : State}

theorem executeIllegal_of_error (hp : s.phase = .error) : executeIllegal s = s := if_pos hp

theorem executeIllegal_of_not_error (hp : s.phase ≠ .error) : executeIllegal s = raiseError .illegalCmd s := if_neg hp

theorem inOpenSession_of_error (body : State → State) (hp : s.phase = .error) : inOpenSession body s = s := if_pos hp

theorem inOpenSession_of_busy (body : State → State) (hp : s.phase ≠ .error) (hb : s.busy = true) :
    inOpenSession body s = raiseError .busyViolation s := by
  rw [inOpenSession, if_neg hp, if_pos hb]

theorem inOpenSession_of_closed (body : State → State) (hp : s.phase ≠ .error) (hclosed : s.phase ≠ .opened)
    (hb : s.busy = false) : inOpenSession body s = raiseError .sequence s := by
  rw [inOpenSession, if_neg hp, if_neg (by simp [hb]), if_pos hclosed]

/-- ABSORB and FINAL have the same checks before their own rules. -/
theorem exec_eq_inOpenSession {i : Instr} (hi : i = .final ∨ ∃ nbm1, i = .absorb nbm1) :
    ∃ body, ∀ s, exec i s = .next (inOpenSession body s) := by
  rcases hi with rfl | ⟨nbm1, rfl⟩
  · exact ⟨_, exec_final⟩
  · exact ⟨_, exec_absorb nbm1⟩

/-- R285: in ERROR a command changes nothing, unless it is INIT with BUSY = 0. -/
theorem exec_of_error {i : Instr} (hp : s.phase = .error) (hi : ¬ (i = .init ∧ s.busy = false)) : exec i s = .next s := by
  obtain ⟨t, ht⟩ := exec_answers_next i s
  cases exec_cases ht with
  | same he _ => rw [ht, he]
  | raise c _ hne => exact absurd hp hne
  | init hinit hb _ => exact absurd ⟨hinit, hb⟩ hi
  | absorb n _ ho _ _ => rw [hp] at ho; cases ho
  | final _ ho _ _ => rw [hp] at ho; cases ho

/-- R284: a command that leads into ERROR does nothing but raise one error. -/
theorem exec_into_error {i : Instr} {t : State} (h : exec i s = .next t) (hs : s.phase ≠ .error) (ht : t.phase = .error) :
    ∃ c, t = raiseError c s := by
  cases exec_cases h with
  | same he _ => exact absurd (he ▸ ht) hs
  | raise c he _ => exact ⟨c, he⟩
  | init _ _ he => subst he; cases ht
  | absorb n _ _ _ he =>
    obtain ⟨-, -, hphase, -⟩ := absorbBytes_frame (messageBytes (byteCount n) s.data) s
    subst he
    exact absurd (hphase.symm.trans ht) hs
  | final _ _ _ he => subst he; cases ht

end

/-- Settles O16: ABSORB and FINAL stand behind `inOpenSession`, whose checks are taken in R284's order. -/
theorem absorbAndFinalChecks : Obligations.AbsorbAndFinalChecks := by
  intro s i hi
  obtain ⟨body, hexec⟩ := exec_eq_inOpenSession hi
  rw [hexec]
  refine ⟨fun hp => ?_, fun hp hb => ?_, fun hp hclosed hb => ?_⟩
  · rw [inOpenSession_of_error body hp]
  · rw [inOpenSession_of_busy body hp hb]; rfl
  · rw [inOpenSession_of_closed body hp hclosed hb]; rfl

/-! ### The step that serves a CTRL write -/

section
variable {s : State} {later : List Event} {v : Nat}

theorem step_illegal {e : IllegalWord} (hi : s.inbox = .access (.write (shaBase s) 4 v) :: later)
    (hd : decode (BitVec.ofNat 32 v) = .error e) :
    step s = .next (executeIllegal { s with inbox := later, answer := .ok }) := by
  rw [step_ctrl s later v hi, executeCommand, hd]

/-- R285: the CTRL writes that ERROR ignores. -/
theorem step_ctrl_of_error (hp : s.phase = .error) (hi : s.inbox = .access (.write (shaBase s) 4 v) :: later)
    (hinit : ¬ (decode (BitVec.ofNat 32 v) = .ok .init ∧ s.busy = false)) :
    step s = .next { s with inbox := later, answer := .ok } := by
  cases hd : decode (BitVec.ofNat 32 v) with
  | error e => rw [step_illegal hi hd]; exact congrArg _ (executeIllegal_of_error hp)
  | ok i =>
    rw [step_ctrl s later v hi, executeCommand, hd]
    exact exec_of_error hp fun ⟨hinstr, hb⟩ => hinit ⟨hinstr ▸ hd, hb⟩

theorem step_data (hi : s.inbox = .access (.write (shaBase s + 0x08) 4 v) :: later) :
    step s = .next { s with inbox := later, answer := .ok, data := BitVec.ofNat 32 v } := by
  rw [step_write s later 8 v rfl hi, (regAt_data 8).2 rfl]
  rfl

end

/-- Settles O7: the word does not decode, and outside ERROR that is ILLEGAL_CMD before any check of BUSY. -/
theorem illegalWordRecorded : Obligations.IllegalWordRecorded := by
  intro s later v e hi hd hp
  rw [step_illegal hi hd]
  exact congrArg _ (executeIllegal_of_not_error hp)

/-- Settles O8: a CTRL write is ignored whether its word decodes or not; DATA and reads know no PHASE. -/
theorem errorPhaseIgnoresCommands : Obligations.ErrorPhaseIgnoresCommands := by
  intro s later hp
  exact ⟨fun v hi hinit => step_ctrl_of_error hp hi hinit, fun v hi => step_data hi,
    fun off ho hi => step_read s later off ho hi⟩

/-! ### Into ERROR and out of it -/

/-- Settles O21: of the ways of a step only a CTRL write leads into ERROR, by a command's check or by an Illegal word. -/
theorem errorsArePrecise : Obligations.ErrorsArePrecise := by
  intro s t h hs ht
  cases step_cases h with
  | engine later _ he =>
    obtain ⟨-, -, -, -, hdone, -⟩ := engineStep_phase (s := awaiting later s) fun hc => hs (hc.symm.trans (he ▸ ht))
    rw [he, hdone] at ht
    cases ht
  | reset later _ he => subst he; cases ht
  | read later off _ _ he => subst he; exact absurd ht hs
  | command later v i hi _ he =>
    obtain ⟨c, hc⟩ := exec_into_error he hs ht
    exact ⟨v, later, c, hi, hc⟩
  | illegal later v e hi _ he => exact ⟨v, later, .illegalCmd, hi, he.trans (executeIllegal_of_not_error hs)⟩
  | data later v _ he => subst he; exact absurd ht hs
  | ignored later off v _ _ _ _ he => subst he; exact absurd ht hs

/-- Settles O19: the two steps complete, and of the rows of R169 that change PHASE no other begins in ERROR. -/
theorem onlyInitOrResetLeavesError : Obligations.OnlyInitOrResetLeavesError := by
  intro s hp
  refine ⟨fun hc hb => ?_, fun hr => ?_, fun t h ht => ?_⟩
  · obtain ⟨later, hstep⟩ := step_nextCommand hc
    exact ⟨_, hstep.trans (initOpensSession _ hb), rfl, rfl⟩
  · obtain ⟨later, hi⟩ := (nextIsReset_iff s).1 hr
    exact ⟨_, step_cons s _ later hi, rfl⟩
  · rcases phaseTransitions s t h (fun hc => ht (hc.trans hp)) with
      ⟨hr, -⟩ | ⟨hc, hb, -⟩ | ⟨-, hopen, -⟩ | ⟨hfinishing, -⟩ | ⟨hne, -⟩
    · exact .inl hr
    · exact .inr ⟨hc, hb⟩
    · rw [hp] at hopen; cases hopen
    · rw [hp] at hfinishing; cases hfinishing
    · exact absurd hp hne

/-! ### The engine in ERROR -/

/-- R167: outside FINISHING a completed block launches nothing. -/
theorem afterBlock_of_not_finishing {s : State} (hp : s.phase ≠ .finishing) : afterBlock s = { s with busy := false } := by
  rcases afterBlock_cases s with ⟨hf, -⟩ | ⟨hf, -⟩ | ⟨-, he⟩
  · exact absurd hf hp
  · exact absurd hf hp
  · exact he

/-- Settles O20: the engine's turn looks at PHASE only after the feed-forward, and ERROR is not FINISHING. -/
theorem blockInFlightCompletesInError : Obligations.BlockInFlightCompletesInError := by
  intro s hp hb
  split
  next ht =>
    rw [engineStep_round s hb ht]
    rfl
  next ht =>
    rw [engineStep_feedForward s hb (by omega), feedForwardStep, afterBlock_of_not_finishing (by simp [hp])]

/-! ### The structural violation -/

/-- Settles O55: a step that stops is a BusError or a refusal, and a padded message has its chunks. -/
theorem structuralViolationIsUnreachable : Obligations.StructuralViolationIsUnreachable := by
  refine ⟨fun s hv => ?_, fun m hv => ?_⟩
  · rcases onlyHostAccessesStop s with ⟨t, hn⟩ | ⟨a, later, -, ⟨hr, -⟩ | ⟨hf, -⟩⟩
    · rw [hn] at hv; cases hv
    · rw [hr] at hv; cases hv
    · rw [hf] at hv; cases hv
  · rw [chunks_eq_wholeBlocks (length_pad_mod m)] at hv
    cases hv

end Sys2Proof.Proofs.Exceptions
end

section
/-! Reset and hazards (70_reset_and_hazards.md): a reset clears the window (R310), the commands that leave BUSY = 1 (R314), and the engine's way back to
BUSY = 0 when the host is silent (R318, R319). -/

namespace Sys2Proof.Proofs.ResetAndHazards
open Sys2Proof Sys2Proof.Machine Sys2Proof.Proofs.Control Sys2Proof.Proofs.Commands

/-! ### Reset -/

/-- R310: what a reset keeps, the window's base and the events to come, is in no register. -/
theorem regRead_resetEngine (s : State) (r : Reg) : regRead (resetEngine s) r = regRead State.reset r := by
  cases r <;> rfl

/-- Settles O43: the step is `resetEngine`, whose registers are those of the reset state (O44). -/
theorem resetEventClears : Obligations.ResetEventClears := by
  intro s later hi
  obtain ⟨hzero, -⟩ := resetStateIsQuietAndCoherent
  exact ⟨resetEngine (awaiting later s), step_cons s _ later hi, rfl, rfl, rfl, rfl, rfl, rfl, rfl, rfl,
    fun r => (regRead_resetEngine _ r).trans (hzero r)⟩

/-! ### The BUSY hazard -/

/-- R314: bytes launch a block exactly when they reach the 64th. -/
theorem absorbBytes_busy_iff {s : State} (hb : s.busy = false) {bs : List Byte} (hlen : bs.length < 64) :
    (absorbBytes s bs).busy = true ↔ 64 ≤ s.fill.val + bs.length := by
  by_cases h : 64 ≤ s.fill.val + bs.length
  · simp [absorbBytes_launch s bs h hlen, h]
  · simp [absorbBytes_room bs s (by omega), hb, h]

/-- Settles O14: ABSORB n appends n ≤ 4 bytes, and FINAL launches its block whatever FILL is. -/
theorem whichCommandsLeaveBusy : Obligations.WhichCommandsLeaveBusy := by
  intro s nbm1 hp hb
  have hlen := length_absorbed nbm1 s.data
  have hnbm1 := nbm1.isLt
  refine ⟨⟨_, exec_absorb_open nbm1 hp hb, ?_⟩, ⟨finalPad s, ?_, finalPad_busy s⟩⟩
  · rw [absorbBytes_busy_iff hb (by omega), hlen]
  · rw [exec_final, inOpenSession_open _ _ hp hb]

/-! ### Progress -/

theorem run_succ (M : Host.Core) {s t : M.State} (k : Nat) (h : M.step s = .next t) : M.run (k + 1) s = M.run k t := by
  rw [Host.Core.run, h]

theorem run_add (M : Host.Core) {m : Nat} {s t : M.State} (n : Nat) (h : M.run m s = .next t) :
    M.run (m + n) s = M.run n t := by
  induction m generalizing s with
  | zero => cases h; rw [Nat.zero_add]
  | succ m ih =>
    cases hstep : M.step s with
    | next u =>
      rw [run_succ M m hstep] at h
      rw [Nat.add_right_comm, run_succ M (m + n) hstep, ih h]
    | fault r => rw [Host.Core.run, hstep] at h; cases h
    | refused r => rw [Host.Core.run, hstep] at h; cases h

/-- R318: with n rounds to go and no event pending, n round steps and one feed-forward step complete the block in flight. -/
theorem run_block {n : Nat} {s : State} (hb : s.busy = true) (hi : s.inbox = []) (hn : s.t.val + n = 64) :
    ∃ u : State, Host.Core.run core (n + 1) s = .next (afterBlock u) ∧
      u.phase = s.phase ∧ u.padpend = s.padpend ∧ u.inbox = [] := by
  induction n generalizing s with
  | zero =>
    have hstep := step_nil s hi
    rw [engineStep_feedForward (awaiting [] s) hb hn] at hstep
    exact ⟨{ awaiting [] s with hash := feedForward s.hash s.work }, run_succ core 0 hstep, rfl, rfl, rfl⟩
  | succ n ih =>
    have ht : (awaiting [] s).t.val < 64 := by rw [awaiting_t]; omega
    have hleft : (roundStep (awaiting [] s) ht).t.val + n = 64 := by simp only [roundStep_t, awaiting_t]; omega
    have hstep := step_nil s hi
    rw [engineStep_round (awaiting [] s) hb ht] at hstep
    obtain ⟨u, hrun, hu⟩ := ih (s := roundStep (awaiting [] s) ht) hb rfl hleft
    exact ⟨u, (run_succ core (n + 1) hstep).trans hrun, hu⟩

/-- R319: the block in flight is completed within 65 steps, whatever its round. -/
theorem run_to_afterBlock {s : State} (hb : s.busy = true) (hi : s.inbox = []) :
    ∃ k ≤ 65, ∃ u : State, Host.Core.run core k s = .next (afterBlock u) ∧
      u.phase = s.phase ∧ u.padpend = s.padpend ∧ u.inbox = [] := by
  have ht := s.t.isLt
  exact ⟨64 - s.t.val + 1, by omega, run_block hb hi (by omega)⟩

/-- R167: the first of two padding blocks launches the second, after which none pends. -/
theorem afterBlock_launches_second {s : State} (hp : s.phase = .finishing) (hd : s.padpend = true) :
    (afterBlock s).busy = true ∧ (afterBlock s).phase = .finishing ∧ (afterBlock s).padpend = false ∧
      (afterBlock s).inbox = s.inbox := by
  rw [afterBlock, if_pos ⟨hp, hd⟩]
  exact ⟨rfl, hp, rfl, rfl⟩

/-- R167: every other block leaves BUSY = 0, and the last of the padding DONE. -/
theorem afterBlock_rests {s : State} (h : ¬ (s.phase = .finishing ∧ s.padpend = true)) :
    (afterBlock s).busy = false ∧ (s.phase = .finishing → (afterBlock s).phase = .done) ∧
      (s.phase ≠ .finishing → (afterBlock s).phase = s.phase) := by
  rcases afterBlock_cases s with ⟨hp, hd, -⟩ | ⟨hp, -, he⟩ | ⟨hp, he⟩
  · exact absurd ⟨hp, hd⟩ h
  · rw [he]; exact ⟨rfl, fun _ => rfl, fun hc => absurd hp hc⟩
  · rw [he]; exact ⟨rfl, fun hc => absurd hc hp, fun _ => rfl⟩

/-- Settles O27: the block in flight is the last, or the first of two padding blocks, whose second is the last. -/
theorem busyEngineComesToRest : Obligations.BusyEngineComesToRest := by
  intro s _ hb hi
  obtain ⟨k, hk, u, hrun, hphase, -, hinbox⟩ := run_to_afterBlock hb hi
  rw [← hphase]
  by_cases hpend : u.phase = .finishing ∧ u.padpend = true
  · obtain ⟨hp, hd⟩ := hpend
    obtain ⟨hbusy, hfinishing, hlast, hsilent⟩ := afterBlock_launches_second hp hd
    obtain ⟨k', hk', u', hrun', hphase', hpad', -⟩ := run_to_afterBlock hbusy (hsilent.trans hinbox)
    obtain ⟨hrest, hdone, -⟩ := afterBlock_rests (s := u') (by simp [hpad', hlast])
    exact ⟨k + k', by omega, _, (run_add core k' hrun).trans hrun', hrest, fun _ => hdone (hphase'.trans hfinishing),
      fun hc => absurd hp hc⟩
  · obtain ⟨hrest, hdone, hsame⟩ := afterBlock_rests hpend
    exact ⟨k, by omega, _, hrun, hrest, hdone, fun hp => ⟨hsame hp, hk⟩⟩

end Sys2Proof.Proofs.ResetAndHazards
end
